-- ==== Sys2Proof/Word.lean ====
section
/-! DEFINITION. The machine's word types (spec/00_scope.md R7, R9, R11).
Everything is unsigned; a value is narrowed only where a rule says so. -/

namespace Sys2Proof

/-- An 8-bit value: a register of `V`, a timer, a memory cell, an immediate `kk` (R7). -/
abbrev Byte := BitVec 8

/-- A 16-bit value: an opcode, `I`, `PC`, a cell of `STACK` (R7). -/
abbrev Word := BitVec 16

/-- A 12-bit immediate address `nnn` (30_encoding.md R45). -/
abbrev Addr12 := BitVec 12

/-- A general-register index, 0 to 15: always in range (10_state.md R14). -/
abbrev Reg := Fin 16

/-- `VF = V[15]`, the flag (10_state.md R15). -/
abbrev regF : Reg := 15

/-- `V0`, the offset register of JP V0,nnn (10_state.md R14). -/
abbrev reg0 : Reg := 0

/-- The framebuffer: 32 rows of 64 one-bit cells. Bit `col` of row `row` (bit 0 the least
significant) is `FB[row][col]`, so that the rows joined, row 0 lowest, are the row-major picture
of 10_state.md R21 and 60_exceptions.md R124. -/
abbrev Framebuffer := Vector (BitVec 64) 32

/-- `FB[row][col]`; no cell exists outside the frame, where this answers false. -/
def Framebuffer.pixel (fb : Framebuffer) (row col : Nat) : Bool :=
  if h : row < 32 then (fb[row]).getLsbD col else false

end Sys2Proof
end

