-- ==== Sys2Proof/Config.lean ====
section
/-! DEFINITION. What is fixed for the machine: the fixed quantities of spec/00_scope.md R7, the
types of the parameters of R8, and the free value of R24(a). The decided value of each parameter
stands in Sys2Proof/Machine/Params.lean. -/

namespace Sys2Proof.Config

/-- `MEM_SIZE`, 4096 bytes (R7). -/
def memSize : Nat := 4096

/-- `PROG_BASE`, where programs are loaded and execution begins (R7). -/
def progBase : Nat := 0x200

/-- `PROG_MAX`, the longest program image: 4096 - 0x200 (R7). -/
def progMax : Nat := 3584

/-- `GLYPH_BASE`, the address of the glyph set (R7). -/
def glyphBase : Nat := 0x050

/-- The length of the glyph set in bytes: 16 glyphs of 5 bytes (R7). -/
def glyphLen : Nat := 80

/-- `STACK_DEPTH`, the most return addresses the stack holds (R7). -/
def stackDepth : Nat := 16

/-- FREE VALUE (assumption log 2). The byte the environment supplies as the argument `rnd` of a
bare Step: one byte for each draw, under no law (10_state.md R24(a), the spec's decision D20).
It has no body, so no proof can rest on what it is. -/
opaque randomByte : Nat → Byte

/-- `TIMER_MODE`: who issues `Tick` (R8, 60_exceptions.md R120). -/
inductive TimerMode where
  /-- `Tick` is a host event. -/
  | external
  /-- Every Step that ends ok performs one `Tick` as its last action. -/
  | perStep
deriving DecidableEq, Repr

/-- `SHIFT_SOURCE`: the register SHR and SHL read (R8, 42_alu.md R83, R84). -/
inductive ShiftSource where
  | vx
  | vy
deriving DecidableEq, Repr

/-- `VF_WRITE_ORDER`: which of a flag-writing ALU instruction's two writes comes last
(R8, 40_cycle.md R63). -/
inductive VfWriteOrder where
  | flagThenResult
  | resultThenFlag
deriving DecidableEq, Repr

/-- `PC_CHECK`: whether a fetch at an odd `PC` or below 0x200 is an error (R8, 40_cycle.md R58). -/
inductive PcCheck where
  | strict
  | boundsOnly
deriving DecidableEq, Repr

/-- `KEY_INDEX_POLICY`: what SKP and SKNP do when `Vx > 15` (R8, 45_keypad_timers.md R98). -/
inductive KeyIndexPolicy where
  | fault
  | maskLow4
deriving DecidableEq, Repr

/-- The parameters the source leaves open (R8): a value of each, fixed while the machine runs. -/
structure Params where
  timerMode      : TimerMode
  shiftSource    : ShiftSource
  vfWriteOrder   : VfWriteOrder
  pcCheck        : PcCheck
  keyIndexPolicy : KeyIndexPolicy
  /-- `GLYPH_ROM`: any 80 bytes (20_memory.md R30). -/
  glyphRom       : Vector Byte 80
  /-- `RESET_I`. -/
  resetIndex     : Word
  /-- `RESET_FB`. -/
  resetFb        : Framebuffer
  /-- `RESET_KEYS`: true is down. -/
  resetKeys      : Vector Bool 16
deriving DecidableEq, Repr

end Sys2Proof.Config
end

