-- ==== Sys2Proof/Syntax.lean ====
section
/-! DEFINITION. The instruction set: one constructor per row of spec/opcode_table.json, in the
order of 30_encoding.md R48. `x` and `y` select `V[x]` and `V[y]`; `kk`, `nnn` are immediates (R47). -/

namespace Sys2Proof

/-- The 33 instructions (30_encoding.md R48). -/
inductive Instr where
  /-- CLS, `00E0` (R95). -/
  | cls
  /-- RET, `00EE` (R66). -/
  | ret
  /-- JP nnn, `1nnn` (R67). -/
  | jp (nnn : Addr12)
  /-- CALL nnn, `2nnn` (R68). -/
  | call (nnn : Addr12)
  /-- SE Vx,kk, `3xkk` (R69). -/
  | seImm (x : Reg) (kk : Byte)
  /-- SNE Vx,kk, `4xkk` (R70). -/
  | sneImm (x : Reg) (kk : Byte)
  /-- SE Vx,Vy, `5xy0` (R71). -/
  | seReg (x y : Reg)
  /-- LD Vx,kk, `6xkk` (R74). -/
  | ldImm (x : Reg) (kk : Byte)
  /-- ADD Vx,kk, `7xkk` (R75). -/
  | addImm (x : Reg) (kk : Byte)
  /-- LD Vx,Vy, `8xy0` (R76). -/
  | ldReg (x y : Reg)
  /-- OR Vx,Vy, `8xy1` (R77). -/
  | orReg (x y : Reg)
  /-- AND Vx,Vy, `8xy2` (R78). -/
  | andReg (x y : Reg)
  /-- XOR Vx,Vy, `8xy3` (R79). -/
  | xorReg (x y : Reg)
  /-- ADD Vx,Vy, `8xy4` (R80). -/
  | addReg (x y : Reg)
  /-- SUB Vx,Vy, `8xy5` (R81). -/
  | subReg (x y : Reg)
  /-- SHR Vx, `8xy6`; `y` is ignored, or is the source, as SHIFT_SOURCE says (R51, R83). -/
  | shr (x y : Reg)
  /-- SUBN Vx,Vy, `8xy7` (R82). -/
  | subnReg (x y : Reg)
  /-- SHL Vx, `8xyE`; `y` as for SHR (R51, R84). -/
  | shl (x y : Reg)
  /-- SNE Vx,Vy, `9xy0` (R72). -/
  | sneReg (x y : Reg)
  /-- LD I,nnn, `Annn` (R88). -/
  | ldI (nnn : Addr12)
  /-- JP V0,nnn, `Bnnn` (R73). -/
  | jpV0 (nnn : Addr12)
  /-- RND Vx,kk, `Cxkk` (R85). -/
  | rnd (x : Reg) (kk : Byte)
  /-- DRW Vx,Vy,n, `Dxyn`; `n` is the sprite's height, a count (R96). -/
  | drw (x y : Reg) (n : Nat)
  /-- SKP Vx, `Ex9E` (R99). -/
  | skp (x : Reg)
  /-- SKNP Vx, `ExA1` (R100). -/
  | sknp (x : Reg)
  /-- LD Vx,DT, `Fx07` (R101). -/
  | ldVxDt (x : Reg)
  /-- LD DT,Vx, `Fx15` (R102). -/
  | ldDtVx (x : Reg)
  /-- LD ST,Vx, `Fx18` (R103). -/
  | ldStVx (x : Reg)
  /-- ADD I,Vx, `Fx1E` (R89). -/
  | addI (x : Reg)
  /-- LD F,Vx, `Fx29` (R90). -/
  | ldF (x : Reg)
  /-- LD B,Vx, `Fx33` (R91). -/
  | ldB (x : Reg)
  /-- LD [I],Vx, `Fx55` (R92). -/
  | ldMemVx (x : Reg)
  /-- LD Vx,[I], `Fx65` (R93). -/
  | ldVxMem (x : Reg)
deriving DecidableEq, Repr

end Sys2Proof
end

