-- ==== Sys2Proof/WellFormed.lean ====
section
/-! DEFINITION. Which instruction terms an opcode can hold (spec/30_encoding.md R45, R47).
Register indexes and immediates are in range by their types; the one operand with a bound to
check is DRW's row count `n`, "an unsigned count 0 to 15". -/

namespace Sys2Proof

/-- The term is one that some opcode encodes (R45, R47). -/
def Instr.wf : Instr → Bool
  | .drw _ _ n => n ≤ 15
  | .cls | .ret | .jp _ | .call _ | .seImm _ _ | .sneImm _ _ | .seReg _ _ | .ldImm _ _
  | .addImm _ _ | .ldReg _ _ | .orReg _ _ | .andReg _ _ | .xorReg _ _ | .addReg _ _
  | .subReg _ _ | .shr _ _ | .subnReg _ _ | .shl _ _ | .sneReg _ _ | .ldI _ | .jpV0 _
  | .rnd _ _ | .skp _ | .sknp _ | .ldVxDt _ | .ldDtVx _ | .ldStVx _ | .addI _ | .ldF _
  | .ldB _ | .ldMemVx _ | .ldVxMem _ => true

end Sys2Proof
end

