-- ==== Sys2Proof/Decode.lean ====
section
/-! DEFINITION. The decoder and the encoder (spec/30_encoding.md R44 to R54). The decoder is total:
every word is one of the 33 instructions or `Unknown` (R49, R50). Decoding depends on the word
alone. The bit patterns are the spec's (its decisions D5, D6; assumption log 10). -/

namespace Sys2Proof

/-- The primary opcode, bits 15:12 (R45). -/
def fieldOp (w : Word) : BitVec 4 := w.extractLsb' 12 4

/-- The nibble at bits 11:8 (R45). -/
def nibbleX (w : Word) : BitVec 4 := w.extractLsb' 8 4

/-- The nibble at bits 7:4 (R45). -/
def nibbleY (w : Word) : BitVec 4 := w.extractLsb' 4 4

/-- `n`, bits 3:0 (R45). -/
def fieldN (w : Word) : BitVec 4 := w.extractLsb' 0 4

/-- `kk`, bits 7:0 (R45). -/
def fieldKk (w : Word) : Byte := w.extractLsb' 0 8

/-- `nnn`, bits 11:0 (R45). -/
def fieldNnn (w : Word) : Addr12 := w.extractLsb' 0 12

/-- `x`, the first register index (R45). -/
def fieldX (w : Word) : Reg := (nibbleX w).toFin

/-- `y`, the second register index (R45). -/
def fieldY (w : Word) : Reg := (nibbleY w).toFin

/-- The decoder's answer for one word: an instruction, or the explicit `Unknown` tag carrying the
raw opcode (R49). -/
inductive Decoded where
  | instr (i : Instr)
  | unknown (w : Word)
deriving DecidableEq, Repr

/-- Group 8: register to register (R49). -/
def decodeGroup8 (w : Word) : Decoded :=
  match (fieldN w).toNat with
  | 0 => .instr (.ldReg (fieldX w) (fieldY w))
  | 1 => .instr (.orReg (fieldX w) (fieldY w))
  | 2 => .instr (.andReg (fieldX w) (fieldY w))
  | 3 => .instr (.xorReg (fieldX w) (fieldY w))
  | 4 => .instr (.addReg (fieldX w) (fieldY w))
  | 5 => .instr (.subReg (fieldX w) (fieldY w))
  | 6 => .instr (.shr (fieldX w) (fieldY w))
  | 7 => .instr (.subnReg (fieldX w) (fieldY w))
  | 0xE => .instr (.shl (fieldX w) (fieldY w))
  | _ => .unknown w

/-- Group F: timers, index, memory (R49). -/
def decodeGroupF (w : Word) : Decoded :=
  match (fieldKk w).toNat with
  | 0x07 => .instr (.ldVxDt (fieldX w))
  | 0x15 => .instr (.ldDtVx (fieldX w))
  | 0x18 => .instr (.ldStVx (fieldX w))
  | 0x1E => .instr (.addI (fieldX w))
  | 0x29 => .instr (.ldF (fieldX w))
  | 0x33 => .instr (.ldB (fieldX w))
  | 0x55 => .instr (.ldMemVx (fieldX w))
  | 0x65 => .instr (.ldVxMem (fieldX w))
  | _ => .unknown w

/-- `Decode(w)`, as the case on `op` that R49 writes out. -/
def decodeWord (w : Word) : Decoded :=
  match (fieldOp w).toNat with
  | 0x0 => if w = 0x00E0 then .instr .cls else if w = 0x00EE then .instr .ret else .unknown w
  | 0x1 => .instr (.jp (fieldNnn w))
  | 0x2 => .instr (.call (fieldNnn w))
  | 0x3 => .instr (.seImm (fieldX w) (fieldKk w))
  | 0x4 => .instr (.sneImm (fieldX w) (fieldKk w))
  | 0x5 => if fieldN w = 0 then .instr (.seReg (fieldX w) (fieldY w)) else .unknown w
  | 0x6 => .instr (.ldImm (fieldX w) (fieldKk w))
  | 0x7 => .instr (.addImm (fieldX w) (fieldKk w))
  | 0x8 => decodeGroup8 w
  | 0x9 => if fieldN w = 0 then .instr (.sneReg (fieldX w) (fieldY w)) else .unknown w
  | 0xA => .instr (.ldI (fieldNnn w))
  | 0xB => .instr (.jpV0 (fieldNnn w))
  | 0xC => .instr (.rnd (fieldX w) (fieldKk w))
  | 0xD => .instr (.drw (fieldX w) (fieldY w) (fieldN w).toNat)
  | 0xE => if fieldKk w = 0x9E then .instr (.skp (fieldX w))
           else if fieldKk w = 0xA1 then .instr (.sknp (fieldX w)) else .unknown w
  | _ => decodeGroupF w

/-- Two bytes as one opcode, the first the high byte (20_memory.md R35, 30_encoding.md R44). -/
def joinBytes (hi lo : Byte) : Word := hi ++ lo

/-- The byte at an opcode's lower address. -/
def highByte (w : Word) : Byte := w.extractLsb' 8 8

/-- The byte at an opcode's higher address. -/
def lowByte (w : Word) : Byte := w.extractLsb' 0 8

/-- The decoder's answer for a byte sequence. -/
inductive DecodedBytes where
  /-- The first instruction and the bytes after it. -/
  | instr (i : Instr) (rest : List Byte)
  /-- The first word is `Unknown` (R50). -/
  | unknown (w : Word) (rest : List Byte)
  /-- Fewer than two bytes: no opcode (R44). -/
  | truncated (bytes : List Byte)
deriving DecidableEq, Repr

/-- Decode the first instruction of a byte sequence; every instruction is two bytes (R44, R53). -/
def decodeBytes : List Byte → DecodedBytes
  | hi :: lo :: rest =>
    match decodeWord (joinBytes hi lo) with
    | .instr i => .instr i rest
    | .unknown w => .unknown w rest
  | bytes => .truncated bytes

/-- An opcode's two bytes as memory holds them, high byte first (R44). -/
def wordBytes (w : Word) : List Byte := [highByte w, lowByte w]

/-! The encoder (R54). -/

/-- A word from its four nibbles, most significant first (R45, R46). -/
def nibbles (a b c d : BitVec 4) : Word := a ++ b ++ c ++ d

/-- Formats XY and XYN: `op x y n` (R46). -/
def encXY (op : BitVec 4) (x y : Reg) (n : BitVec 4) : Word :=
  nibbles op (BitVec.ofFin x) (BitVec.ofFin y) n

/-- Formats XKK and X: `op x kk` (R46). -/
def encXKK (op : BitVec 4) (x : Reg) (kk : Byte) : Word :=
  (op ++ (BitVec.ofFin x : BitVec 4) : BitVec 8) ++ kk

/-- Format NNN: `op nnn` (R46). -/
def encNNN (op : BitVec 4) (nnn : Addr12) : Word := op ++ nnn

/-- The word of an instruction: its match value with its fields at their bits (R48, R54). -/
def encode : Instr → Word
  | .cls => 0x00E0
  | .ret => 0x00EE
  | .jp nnn => encNNN 0x1 nnn
  | .call nnn => encNNN 0x2 nnn
  | .seImm x kk => encXKK 0x3 x kk
  | .sneImm x kk => encXKK 0x4 x kk
  | .seReg x y => encXY 0x5 x y 0x0
  | .ldImm x kk => encXKK 0x6 x kk
  | .addImm x kk => encXKK 0x7 x kk
  | .ldReg x y => encXY 0x8 x y 0x0
  | .orReg x y => encXY 0x8 x y 0x1
  | .andReg x y => encXY 0x8 x y 0x2
  | .xorReg x y => encXY 0x8 x y 0x3
  | .addReg x y => encXY 0x8 x y 0x4
  | .subReg x y => encXY 0x8 x y 0x5
  | .shr x y => encXY 0x8 x y 0x6
  | .subnReg x y => encXY 0x8 x y 0x7
  | .shl x y => encXY 0x8 x y 0xE
  | .sneReg x y => encXY 0x9 x y 0x0
  | .ldI nnn => encNNN 0xA nnn
  | .jpV0 nnn => encNNN 0xB nnn
  | .rnd x kk => encXKK 0xC x kk
  | .drw x y n => encXY 0xD x y (BitVec.ofNat 4 n)
  | .skp x => encXKK 0xE x 0x9E
  | .sknp x => encXKK 0xE x 0xA1
  | .ldVxDt x => encXKK 0xF x 0x07
  | .ldDtVx x => encXKK 0xF x 0x15
  | .ldStVx x => encXKK 0xF x 0x18
  | .addI x => encXKK 0xF x 0x1E
  | .ldF x => encXKK 0xF x 0x29
  | .ldB x => encXKK 0xF x 0x33
  | .ldMemVx x => encXKK 0xF x 0x55
  | .ldVxMem x => encXKK 0xF x 0x65

/-- The instruction with the bits the decoder ignores set to 0: with SHIFT_SOURCE = Vx the `y` of
SHR and SHL takes no part in anything (R51). -/
def canonical (src : Config.ShiftSource) : Instr → Instr
  | .shr x y => .shr x (match src with | .vx => 0 | .vy => y)
  | .shl x y => .shl x (match src with | .vx => 0 | .vy => y)
  | i => i

/-- The word an assembler emits: "for SHR and SHL the ignored `y` is encoded as 0" (R51, R54). -/
def assemble (src : Config.ShiftSource) (i : Instr) : Word := encode (canonical src i)

/-! The assembly syntax (R55, the spec's decision D30): the mnemonic, a space, the operands separated
by commas. There are no pseudo-instructions, labels or directives (R56). -/

/-- One hexadecimal digit. -/
def hexDigit (d : BitVec 4) : Char :=
  if d.toNat < 10 then Char.ofNat (0x30 + d.toNat) else Char.ofNat (0x41 + (d.toNat - 10))

/-- A register as `V` and one hexadecimal digit (R55). -/
def regText (r : Reg) : String := String.ofList ['V', hexDigit (BitVec.ofFin r)]

/-- An 8-bit immediate as `0x..` (R55). -/
def byteText (kk : Byte) : String :=
  "0x" ++ String.ofList [hexDigit (kk.extractLsb' 4 4), hexDigit (kk.extractLsb' 0 4)]

/-- A 12-bit immediate as `0x...` (R55). -/
def addrText (nnn : Addr12) : String :=
  "0x" ++ String.ofList [hexDigit (nnn.extractLsb' 8 4), hexDigit (nnn.extractLsb' 4 4),
    hexDigit (nnn.extractLsb' 0 4)]

/-- The statement form of an instruction (R55, the mnemonic column of R48). -/
def Instr.text : Instr → String
  | .cls => "CLS"
  | .ret => "RET"
  | .jp nnn => "JP " ++ addrText nnn
  | .call nnn => "CALL " ++ addrText nnn
  | .seImm x kk => "SE " ++ regText x ++ "," ++ byteText kk
  | .sneImm x kk => "SNE " ++ regText x ++ "," ++ byteText kk
  | .seReg x y => "SE " ++ regText x ++ "," ++ regText y
  | .ldImm x kk => "LD " ++ regText x ++ "," ++ byteText kk
  | .addImm x kk => "ADD " ++ regText x ++ "," ++ byteText kk
  | .ldReg x y => "LD " ++ regText x ++ "," ++ regText y
  | .orReg x y => "OR " ++ regText x ++ "," ++ regText y
  | .andReg x y => "AND " ++ regText x ++ "," ++ regText y
  | .xorReg x y => "XOR " ++ regText x ++ "," ++ regText y
  | .addReg x y => "ADD " ++ regText x ++ "," ++ regText y
  | .subReg x y => "SUB " ++ regText x ++ "," ++ regText y
  | .shr x _ => "SHR " ++ regText x
  | .subnReg x y => "SUBN " ++ regText x ++ "," ++ regText y
  | .shl x _ => "SHL " ++ regText x
  | .sneReg x y => "SNE " ++ regText x ++ "," ++ regText y
  | .ldI nnn => "LD I," ++ addrText nnn
  | .jpV0 nnn => "JP V0," ++ addrText nnn
  | .rnd x kk => "RND " ++ regText x ++ "," ++ byteText kk
  | .drw x y n => "DRW " ++ regText x ++ "," ++ regText y ++ "," ++ toString n
  | .skp x => "SKP " ++ regText x
  | .sknp x => "SKNP " ++ regText x
  | .ldVxDt x => "LD " ++ regText x ++ ",DT"
  | .ldDtVx x => "LD DT," ++ regText x
  | .ldStVx x => "LD ST," ++ regText x
  | .addI x => "ADD I," ++ regText x
  | .ldF x => "LD F," ++ regText x
  | .ldB x => "LD B," ++ regText x
  | .ldMemVx x => "LD [I]," ++ regText x
  | .ldVxMem x => "LD " ++ regText x ++ ",[I]"

/-! The opcode map as R48 prints it, for statements about the decoder. -/

/-- One row of R48: its number, `match` and `mask`. -/
structure OpcodeRow where
  number : Nat
  value  : Word
  mask   : Word
deriving DecidableEq, Repr

/-- A word is a row's instruction if and only if `w & mask = match` (R48). -/
def OpcodeRow.selects (r : OpcodeRow) (w : Word) : Bool := w &&& r.mask == r.value

/-- Rows 1 to 19 of R48. -/
def opcodeRowsLow : List OpcodeRow :=
  [⟨1, 0x00E0, 0xFFFF⟩,
   ⟨2, 0x00EE, 0xFFFF⟩,
   ⟨3, 0x1000, 0xF000⟩,
   ⟨4, 0x2000, 0xF000⟩,
   ⟨5, 0x3000, 0xF000⟩,
   ⟨6, 0x4000, 0xF000⟩,
   ⟨7, 0x5000, 0xF00F⟩,
   ⟨8, 0x6000, 0xF000⟩,
   ⟨9, 0x7000, 0xF000⟩,
   ⟨10, 0x8000, 0xF00F⟩,
   ⟨11, 0x8001, 0xF00F⟩,
   ⟨12, 0x8002, 0xF00F⟩,
   ⟨13, 0x8003, 0xF00F⟩,
   ⟨14, 0x8004, 0xF00F⟩,
   ⟨15, 0x8005, 0xF00F⟩,
   ⟨16, 0x8006, 0xF00F⟩,
   ⟨17, 0x8007, 0xF00F⟩,
   ⟨18, 0x800E, 0xF00F⟩,
   ⟨19, 0x9000, 0xF00F⟩]

/-- Rows 20 to 33 of R48. -/
def opcodeRowsHigh : List OpcodeRow :=
  [⟨20, 0xA000, 0xF000⟩,
   ⟨21, 0xB000, 0xF000⟩,
   ⟨22, 0xC000, 0xF000⟩,
   ⟨23, 0xD000, 0xF000⟩,
   ⟨24, 0xE09E, 0xF0FF⟩,
   ⟨25, 0xE0A1, 0xF0FF⟩,
   ⟨26, 0xF007, 0xF0FF⟩,
   ⟨27, 0xF015, 0xF0FF⟩,
   ⟨28, 0xF018, 0xF0FF⟩,
   ⟨29, 0xF01E, 0xF0FF⟩,
   ⟨30, 0xF029, 0xF0FF⟩,
   ⟨31, 0xF033, 0xF0FF⟩,
   ⟨32, 0xF055, 0xF0FF⟩,
   ⟨33, 0xF065, 0xF0FF⟩]

/-- The 33 rows of R48. -/
def opcodeRows : List OpcodeRow := opcodeRowsLow ++ opcodeRowsHigh

/-- The number of an instruction's row in R48. -/
def Instr.rowNumber : Instr → Nat
  | .cls => 1
  | .ret => 2
  | .jp _ => 3
  | .call _ => 4
  | .seImm _ _ => 5
  | .sneImm _ _ => 6
  | .seReg _ _ => 7
  | .ldImm _ _ => 8
  | .addImm _ _ => 9
  | .ldReg _ _ => 10
  | .orReg _ _ => 11
  | .andReg _ _ => 12
  | .xorReg _ _ => 13
  | .addReg _ _ => 14
  | .subReg _ _ => 15
  | .shr _ _ => 16
  | .subnReg _ _ => 17
  | .shl _ _ => 18
  | .sneReg _ _ => 19
  | .ldI _ => 20
  | .jpV0 _ => 21
  | .rnd _ _ => 22
  | .drw _ _ _ => 23
  | .skp _ => 24
  | .sknp _ => 25
  | .ldVxDt _ => 26
  | .ldDtVx _ => 27
  | .ldStVx _ => 28
  | .addI _ => 29
  | .ldF _ => 30
  | .ldB _ => 31
  | .ldMemVx _ => 32
  | .ldVxMem _ => 33

/-- The first 16-bit word of an opcode-table number of `nbits` bits; bits above `nbits` are 0. -/
def tableWord (nbits w : Nat) : Word := BitVec.ofNat 16 (w % 2 ^ nbits)

/-- The instruction the decoder reads from an opcode-table word laid out as memory holds it. -/
def decodeTableWord (nbits w : Nat) : Option Instr :=
  match decodeBytes (wordBytes (tableWord nbits w)) with
  | .instr i _ => some i
  | .unknown _ _ => none
  | .truncated _ => none

end Sys2Proof
end

