-- ==== Sys2Proof/Machine/Memory.lean ====
section
/-! DEFINITION. The one memory as data (spec/20_memory.md R28 to R31, 10_state.md R23): a list of
(address, byte) pairs in one canonical form, and the operations that keep it. Bounds are checked in
Machine/Ops.lean; here an address is any natural number. -/

namespace Sys2Proof.Machine

open Config

/-- The cells whose content differs from the reset content, addresses strictly rising. -/
abbrev Memory := List Host.Cell

/-- What an address that is not listed reads as: the reset content of R27 and R29, `GLYPH_ROM` at
0x050 to 0x09F and 0 everywhere else. -/
def Memory.unlisted (rom : Vector Byte 80) (a : Nat) : Byte :=
  if glyphBase ≤ a ∧ a < glyphBase + glyphLen then rom.toList.getD (a - glyphBase) 0 else 0

/-- The byte at an address. -/
def Memory.read (rom : Vector Byte 80) : Memory → Nat → Byte
  | [], a => Memory.unlisted rom a
  | (b, w) :: m, a => if a = b then w else Memory.read rom m a

/-- A cell in front of a list, unless it holds what an unlisted address reads as. -/
def Memory.consCell (rom : Vector Byte 80) (a : Nat) (v : Byte) (m : Memory) : Memory :=
  if v = Memory.unlisted rom a then m else (a, v) :: m

/-- Write one byte; writing the reset content removes the entry. -/
def Memory.write (rom : Vector Byte 80) : Memory → Nat → Byte → Memory
  | [], a, v => Memory.consCell rom a v []
  | (b, w) :: m, a, v =>
    if a < b then Memory.consCell rom a v ((b, w) :: m)
    else if a = b then Memory.consCell rom a v m
    else (b, w) :: Memory.write rom m a v

/-- Write bytes at rising addresses from `a` (43_index_memory.md R92, 70_reset_and_hazards.md R129). -/
def Memory.writeAll (rom : Vector Byte 80) : Memory → Nat → List Byte → Memory
  | m, _, [] => m
  | m, a, v :: vs => Memory.writeAll rom (Memory.write rom m a v) (a + 1) vs

/-- The `n` bytes at rising addresses from `a` (R93, 44_display.md R94). -/
def Memory.readAll (rom : Vector Byte 80) (m : Memory) : Nat → Nat → List Byte
  | _, 0 => []
  | a, n + 1 => Memory.read rom m a :: Memory.readAll rom m (a + 1) n

/-- The entries, all at or above `lo` and below 4096, rise strictly and none holds what an unlisted
address reads as. -/
def Memory.wfFrom (rom : Vector Byte 80) : Nat → Memory → Bool
  | _, [] => true
  | lo, (a, v) :: m =>
    lo ≤ a && a < memSize && v != Memory.unlisted rom a && Memory.wfFrom rom (a + 1) m

/-- The canonical form: equal memories are equal lists. -/
def Memory.wf (rom : Vector Byte 80) (m : Memory) : Bool := Memory.wfFrom rom 0 m

end Sys2Proof.Machine
end

