-- ==== Sys2Proof/Machine/Params.lean ====
section
/-! DEFINITION. The decided value of each open parameter (spec/00_scope.md R8), the glyph bytes
(20_memory.md R30) among them. -/

namespace Sys2Proof.Machine

open Config

/-- Glyphs 0 to 7 (R30). -/
def glyphsLow : Vector Byte 40 :=
  #v[0xF0, 0x90, 0x90, 0x90, 0xF0,
     0x20, 0x60, 0x20, 0x20, 0x70,
     0xF0, 0x10, 0xF0, 0x80, 0xF0,
     0xF0, 0x10, 0xF0, 0x10, 0xF0,
     0x90, 0x90, 0xF0, 0x10, 0x10,
     0xF0, 0x80, 0xF0, 0x10, 0xF0,
     0xF0, 0x80, 0xF0, 0x90, 0xF0,
     0xF0, 0x10, 0x20, 0x40, 0x40]

/-- Glyphs 8 to F (R30). -/
def glyphsHigh : Vector Byte 40 :=
  #v[0xF0, 0x90, 0xF0, 0x90, 0xF0,
     0xF0, 0x90, 0xF0, 0x10, 0xF0,
     0xF0, 0x90, 0xF0, 0x90, 0x90,
     0xE0, 0x90, 0xE0, 0x90, 0xE0,
     0xF0, 0x80, 0x80, 0x80, 0xF0,
     0xE0, 0x90, 0x90, 0x90, 0xE0,
     0xF0, 0x80, 0xF0, 0x80, 0xF0,
     0xF0, 0x80, 0xF0, 0x80, 0x80]

/-- The decided `GLYPH_ROM`: the usual CHIP-8 hexadecimal font (R30, the spec's decision D23;
assumption log 10). -/
def glyphRomDecided : Vector Byte 80 := glyphsLow ++ glyphsHigh

/-- The decided value of every parameter of R8 (assumption log 5). -/
def paramsDecided : Params where
  timerMode      := .external
  shiftSource    := .vx
  vfWriteOrder   := .flagThenResult
  pcCheck        := .strict
  keyIndexPolicy := .fault
  glyphRom       := glyphRomDecided
  resetIndex     := 0
  resetFb        := Vector.replicate 32 0
  resetKeys      := Vector.replicate 16 false

end Sys2Proof.Machine
end

