-- ==== Sys2Proof/Machine/State.lean ====
section
/-! DEFINITION. The state as plain data (spec/10_state.md R13: ten items), the reasons a step can
stop, the host's events (00_scope.md R5) and their outcomes (R12), and the state after reset (R27). -/

namespace Sys2Proof.Machine

open Config

/-- The error kinds of 60_exceptions.md R105. Each is raised where its rule says and ends the event
with a report; none stops the machine (R65, R104). -/
inductive ErrorKind where
  /-- The fetched word is `Unknown` (R106). -/
  | illegalInstruction
  /-- CALL at depth 16 (R107). -/
  | stackOverflow
  /-- RET at depth 0 (R108). -/
  | stackUnderflow
  /-- A memory access outside [0, 4096) (R109). -/
  | addressOutOfRange
  /-- An image longer than 3584 bytes (R113). -/
  | programTooLarge
  /-- A fetch at an odd `PC` or below 0x200, PC_CHECK = Strict (R111). -/
  | invalidProgramCounter
  /-- SKP or SKNP with `Vx > 15`, KEY_INDEX_POLICY = Fault (R112). -/
  | keyIndexOutOfRange
deriving DecidableEq, Repr

/-- What `raise` reports to the host (R110). -/
structure ErrorReport where
  kind : ErrorKind
  /-- The offending opcode, address, length or key index (R105). -/
  info : Word
  /-- The value of `PC` at the raise. -/
  pc   : Word
deriving DecidableEq, Repr

/-- The outcome of an event (00_scope.md R12), with the value of a read-only event (R124). -/
inductive Reply where
  | ok
  | error (r : ErrorReport)
  /-- `SnapshotVideo`: 2048 bits, bit `64*row + col` the pixel. -/
  | video (bits : BitVec 2048)
  /-- `ReadDelayTimer`, `ReadSoundTimer`, `ReadByte`. -/
  | byte (b : Byte)
  /-- `KeyState`. -/
  | bit (down : Bool)
deriving DecidableEq, Repr

/-- The events the host issues (00_scope.md R5). A key index is 4 bits wide by its type
(60_exceptions.md R123). -/
inductive Event where
  | reset
  | loadProgram (bytes : List Byte)
  | setKey (index : Fin 16) (down : Bool)
  | tick
  | step (rnd : Byte)
  | snapshotVideo
  | readDelayTimer
  | readSoundTimer
  | keyState (index : Fin 16)
  | readByte (addr : Nat)
deriving DecidableEq, Repr

/-- The machine. The first ten fields are the ten items of 10_state.md R13; the last five are the
model's own (INVENTORY.md, assumption log 2 to 5 and 8). -/
structure State where
  /-- `Mem` (R23). -/
  mem     : Memory
  /-- `V0` to `VF` (R14, R15). -/
  v       : Vector Byte 16
  /-- `I` (R16). -/
  index   : Word
  /-- `PC` (R17). -/
  pc      : Word
  /-- `STACK` (R18). -/
  stack   : Vector Word 16
  /-- `SP`, the depth, 0 to 16 (R19). -/
  sp      : Fin 17
  /-- `DT` (R20). -/
  dt      : Byte
  /-- `ST` (R20). -/
  st      : Byte
  /-- `FB` (R21). -/
  fb      : Framebuffer
  /-- `KEY`, true is down (R22). -/
  key     : Vector Bool 16
  /-- The parameters of 00_scope.md R8; nothing changes them. -/
  params  : Params
  /-- The argument of the Step in progress (R24(a)). -/
  rnd     : Byte
  /-- How many Steps have drawn their argument from `Config.randomByte`. -/
  draws   : Nat
  /-- The host events not yet served, oldest first (R24(b)). -/
  pending : List Event
  /-- The outcome of the last event (R12). -/
  reply   : Reply
deriving DecidableEq, Repr

/-- The reasons a step stops the machine: there is none. No error of 60_exceptions.md stops it (R65,
R104, R110): each is a next state whose `reply` is the report, so no meaning raises a fault. -/
inductive Fault where
deriving DecidableEq, Repr

/-- The reasons an instruction is refused. -/
inductive Refusal where
  /-- Raised by an arm of `exec` whose instruction has no meaning yet (safe); no arm is one. -/
  | notModelled (mnemonic : String)
deriving DecidableEq, Repr

/-- Every item of R13 at its reset value under parameters `p`, and nothing pending (R27). -/
def State.resetWith (p : Params) : State where
  mem     := []
  v       := Vector.replicate 16 0
  index   := p.resetIndex
  pc      := 0x200
  stack   := Vector.replicate 16 0
  sp      := 0
  dt      := 0
  st      := 0
  fb      := p.resetFb
  key     := p.resetKeys
  params  := p
  rnd     := 0
  draws   := 0
  pending := []
  reply   := .ok

/-- The machine right after reset, and equally after power-on, with the decided parameters
(R27, 70_reset_and_hazards.md R126). -/
def State.reset : State := State.resetWith paramsDecided

end Sys2Proof.Machine
end

