-- ==== Sys2Proof/Machine/Ops.lean ====
section
/-! DEFINITION. The named operations over the state: one update per field, the access primitives of
spec/20_memory.md R32 and R33, the range check of 43_index_memory.md R87, the registers, the stack
(10_state.md R19), the keypad (45_keypad_timers.md R98), the timers' countdown (60_exceptions.md
R119), and `raise` (R110), which is all the machine has of taking an exception: nothing is saved, no
mode changes, no control is transferred. There is no return from an exception beside it: R115 says
"There is no return-from-trap instruction and nothing to restore". -/

namespace Sys2Proof.Machine

open Config

/-- What a meaning answers. -/
abbrev Result := Host.Outcome State Fault Refusal

/-! One update per field. -/

/-- The state with the memory replaced. -/
def State.setMem (s : State) (a : Memory) : State := { s with mem := a }

/-- The state with the general registers replaced. -/
def State.setV (s : State) (a : Vector Byte 16) : State := { s with v := a }

/-- The state with `I` replaced. -/
def State.setIndex (s : State) (a : Word) : State := { s with index := a }

/-- The state with `PC` replaced. -/
def State.setPc (s : State) (a : Word) : State := { s with pc := a }

/-- The state with the cells of `STACK` replaced. -/
def State.setStack (s : State) (a : Vector Word 16) : State := { s with stack := a }

/-- The state with `SP` replaced. -/
def State.setSp (s : State) (a : Fin 17) : State := { s with sp := a }

/-- The state with `DT` replaced. -/
def State.setDt (s : State) (a : Byte) : State := { s with dt := a }

/-- The state with `ST` replaced. -/
def State.setSt (s : State) (a : Byte) : State := { s with st := a }

/-- The state with the framebuffer replaced. -/
def State.setFb (s : State) (a : Framebuffer) : State := { s with fb := a }

/-- The state with the keypad replaced. -/
def State.setKey (s : State) (a : Vector Bool 16) : State := { s with key := a }

/-- The state with the Step argument replaced. -/
def State.setRnd (s : State) (a : Byte) : State := { s with rnd := a }

/-- The state with the count of drawn Step arguments replaced. -/
def State.setDraws (s : State) (a : Nat) : State := { s with draws := a }

/-- The state with the events not yet served replaced. -/
def State.setPending (s : State) (a : List Event) : State := { s with pending := a }

/-- The state with the outcome of the event replaced. -/
def State.setReply (s : State) (a : Reply) : State := { s with reply := a }

/-! Errors. -/

/-- A value, or the error that is raised instead of it (00_scope.md R12). -/
inductive Checked (α : Type) where
  | ok (a : α)
  | raises (kind : ErrorKind) (info : Word)
deriving DecidableEq, Repr

/-- `raise E(info)` (60_exceptions.md R110): the report to the host, with the value `PC` holds now.
Nothing else of the state changes. -/
def State.raise (s : State) (kind : ErrorKind) (info : Word) : State :=
  s.setReply (.error ⟨kind, info, s.pc⟩)

/-- A handler with one check (40_cycle.md R62): its writes if the check passes, else `raise` from the
state the handler began in. Either way the machine goes on (R65). -/
def conclude {α : Type} (c : Checked α) (s : State) (write : α → State) : Result :=
  match c with
  | .ok a => .next (write a)
  | .raises kind info => .next (s.raise kind info)

/-- A number as a 16-bit report field, saturated at 0xFFFF (60_exceptions.md R105, R109, R113). -/
def saturate16 (n : Nat) : Word := BitVec.ofNat 16 (min n 0xFFFF)

/-- The lowest out-of-range address of an access that begins at `a`: `max(a, 4096)`
(20_memory.md R34, the spec's decision D14). -/
def lowestBad (a : Nat) : Word := saturate16 (max a memSize)

/-! Registers (10_state.md R14). -/

/-- `V[r]`. -/
def State.readReg (s : State) (r : Reg) : Byte := s.v[r]

/-- `V[r] <- b`. -/
def State.writeReg (s : State) (r : Reg) (b : Byte) : State := s.setV (s.v.set r b)

/-- Registers `k`, `k + 1`, ... replaced by a list of bytes (43_index_memory.md R93). -/
def writeBlock : Vector Byte 16 → Nat → List Byte → Vector Byte 16
  | v, _, [] => v
  | v, k, b :: bs => writeBlock (v.setIfInBounds k b) (k + 1) bs

/-- `V[0]` to `V[x]`, in order (43_index_memory.md R92). -/
def State.readBlock (s : State) (x : Reg) : List Byte := s.v.toList.take (x.val + 1)

/-! Memory (20_memory.md). -/

/-- `Mem[a]`, with no bounds check. -/
def State.byteAt (s : State) (a : Nat) : Byte := Memory.read s.params.glyphRom s.mem a

/-- `Mem[a] <- b`, with no bounds check. -/
def State.setByte (s : State) (a : Nat) (b : Byte) : State :=
  s.setMem (Memory.write s.params.glyphRom s.mem a b)

/-- `Mem[a + k] <- bs[k]` for each byte, with no bounds check. -/
def State.setBytes (s : State) (a : Nat) (bs : List Byte) : State :=
  s.setMem (Memory.writeAll s.params.glyphRom s.mem a bs)

/-- `Mem[a]` to `Mem[a + n - 1]`, with no bounds check. -/
def State.bytesAt (s : State) (a n : Nat) : List Byte := Memory.readAll s.params.glyphRom s.mem a n

/-- `MemRead(addr, 1)` (R32). -/
def State.memRead8 (s : State) (addr : Nat) : Checked Byte :=
  if memSize ≤ addr then .raises .addressOutOfRange (saturate16 addr) else .ok (s.byteAt addr)

/-- `MemRead(addr, 2)`: big-endian (R32, R35). -/
def State.memRead16 (s : State) (addr : Nat) : Checked Word :=
  if memSize ≤ addr + 1 then .raises .addressOutOfRange (lowestBad addr)
  else .ok (joinBytes (s.byteAt addr) (s.byteAt (addr + 1)))

/-- `MemWrite(addr, 1, v)` (R33). -/
def State.memWrite8 (s : State) (addr : Nat) (b : Byte) : Checked State :=
  if memSize ≤ addr then .raises .addressOutOfRange (saturate16 addr) else .ok (s.setByte addr b)

/-- `CheckRange(m)`: the whole of `I` to `I + m - 1` is inside memory; no check for `m = 0` (R87). -/
def State.checkRange (s : State) (m : Nat) : Checked Unit :=
  if 0 < m ∧ memSize ≤ s.index.toNat + m - 1
  then .raises .addressOutOfRange (lowestBad s.index.toNat)
  else .ok ()

/-! The program counter (10_state.md R17). -/

/-- Skip the next instruction if the condition holds: `PC <- PC + 2`. -/
def State.skipIf (s : State) (c : Bool) : State := if c then s.setPc (s.pc + 2) else s

/-! The stack (10_state.md R18, R19). -/

/-- `push(v)`; `info` is what the overflow report carries. -/
def State.push (s : State) (a : Word) (info : Word) : Checked State :=
  if h : s.sp.val < 16 then
    .ok ((s.setStack (s.stack.set s.sp.val a)).setSp ⟨s.sp.val + 1, by omega⟩)
  else .raises .stackOverflow info

/-- `pop()`: the popped value and the state after; the popped cell keeps its value. -/
def State.pop (s : State) (info : Word) : Checked (Word × State) :=
  if h : s.sp.val = 0 then .raises .stackUnderflow info
  else .ok (s.stack[s.sp.val - 1], s.setSp ⟨s.sp.val - 1, by omega⟩)

/-! The keypad. -/

/-- `KeyAt(a)` (45_keypad_timers.md R98). -/
def State.keyAt (s : State) (a : Byte) : Checked Bool :=
  match s.params.keyIndexPolicy with
  | .fault =>
    if h : a.toNat < 16 then .ok s.key[a.toNat]
    else .raises .keyIndexOutOfRange (a.setWidth 16)
  | .maskLow4 => .ok (s.key[a.toNat % 16]'(Nat.mod_lt _ (by decide)))

/-! The timers. -/

/-- One countdown of one timer: it saturates at 0 (60_exceptions.md R119). -/
def countDown (t : Byte) : Byte := if t = 0 then 0 else t - 1

/-- `Tick` (R119). -/
def State.tick (s : State) : State := (s.setDt (countDown s.dt)).setSt (countDown s.st)

end Sys2Proof.Machine
end

