-- ==== Sys2Proof/Machine/Operands.lean ====
section
/-! DEFINITION. The operand forms (spec/30_encoding.md R46, R47): immediates zero-extended, the
shifted register, the effective address, the key a register selects. No immediate is sign-extended,
scaled or shifted. -/

namespace Sys2Proof.Machine

open Config

/-- `zext_16(nnn)` (R47). -/
def zextNnn (nnn : Addr12) : Word := nnn.setWidth 16

/-- `zext_16` of an 8-bit value (R47). -/
def zextByte (a : Byte) : Word := a.setWidth 16

/-- The effective address `I + k`, computed as an integer without wrap-around
(20_memory.md R34). -/
def State.effAddr (s : State) (k : Nat) : Nat := s.index.toNat + k

/-- The address of the glyph a register names: `0x050 + 5 * a`, the whole 8-bit value used
(43_index_memory.md R90). -/
def glyphAddr (a : Byte) : Word := BitVec.ofNat 16 (glyphBase + 5 * a.toNat)

/-- The value SHR and SHL shift: `V[x]`, or `V[y]` with SHIFT_SOURCE = Vy (42_alu.md R83, R84). -/
def State.shiftOperand (s : State) (x y : Reg) : Byte :=
  match s.params.shiftSource with
  | .vx => s.readReg x
  | .vy => s.readReg y

/-- The key whose number is in `V[x]` (45_keypad_timers.md R98). -/
def State.keyOperand (s : State) (x : Reg) : Checked Bool := s.keyAt (s.readReg x)

end Sys2Proof.Machine
end

