-- ==== Sys2Proof/Machine/Cycle.lean ====
section
/-! DEFINITION. The parts of one Step around its handler (spec/40_cycle.md R57 to R60, R64): the
check before the fetch, the fetch, the timer bookkeeping; and placing an opcode where the next Step
fetches. Machine/Step.lean puts them together. -/

namespace Sys2Proof.Machine

open Config

/-- A Step begins: its argument is latched and its outcome is ok until something raises (R57). -/
def State.beginStep (s : State) (rnd : Byte) : State := (s.setRnd rnd).setReply .ok

/-- `PC` is even and at least 0x200: what PC_CHECK = Strict asks of a fetch (R58). -/
def pcValid (pc : Word) : Bool := !pc.getLsbD 0 && progBase ≤ pc.toNat

/-- `CheckFetch()`: the bounds first, then the validity of `PC` (R58). -/
def State.checkFetch (s : State) : Checked Unit :=
  if memSize ≤ s.pc.toNat + 1 then .raises .addressOutOfRange (lowestBad s.pc.toNat)
  else match s.params.pcCheck with
    | .strict => if pcValid s.pc then .ok () else .raises .invalidProgramCounter s.pc
    | .boundsOnly => .ok ()

/-- The two bytes at `PC`, big-endian (R59). -/
def State.fetchWord (s : State) : Word :=
  joinBytes (s.byteAt s.pc.toNat) (s.byteAt (s.pc.toNat + 1))

/-- `PC <- PC + 2`, before dispatch (R59). -/
def State.advancePc (s : State) : State := s.setPc (s.pc + 2)

/-- `raise IllegalInstruction(w)` (R60). -/
def State.raiseIllegal (s : State) (w : Word) : State := s.raise .illegalInstruction w

/-- With TIMER_MODE = PerStep a Step that did not raise ends with one `Tick` (R64). -/
def State.timerBookkeeping (s : State) : State :=
  match s.params.timerMode, s.reply with
  | .perStep, .ok => s.tick
  | _, _ => s

/-- The last action of a Step whose handler ran. -/
def endStep : Result → Result
  | .next s => .next s.timerBookkeeping
  | .fault r => .fault r
  | .refused r => .refused r

/-- The state with an opcode's two bytes where the next Step fetches, and no event before that Step.
Where `PC` cannot be fetched from, it is first put at 0x200 (assumption log 13). -/
def State.placeOpcode (s : State) (w : Word) : State :=
  let s' := match s.checkFetch with
    | .ok _ => s
    | .raises _ _ => s.setPc (BitVec.ofNat 16 progBase)
  (s'.setBytes s'.pc.toNat (wordBytes w)).setPending []

end Sys2Proof.Machine
end

