-- ==== Sys2Proof/Machine/Flags.lean ====
section
/-! DEFINITION. The one flag, `VF = V[15]`: the value each flag-writing instruction gives it
(spec/10_state.md R15) and the order of the two writes (40_cycle.md R63). -/

namespace Sys2Proof.Machine

open Config

/-- A condition as the flag's value, always 0 or 1 (R15). -/
def flagOf (c : Bool) : Byte := if c then 1 else 0

/-- Carry out of bit 7 (42_alu.md R80). -/
def carryFlag (a b : Byte) : Byte := flagOf (255 < a.toNat + b.toNat)

/-- No borrow in `a - b`: 1 if `a >= b` (R81, R82). -/
def noBorrowFlag (a b : Byte) : Byte := flagOf (b.toNat ≤ a.toNat)

/-- The bit a right shift drops, `a & 1` (R83). -/
def shrFlag (a : Byte) : Byte := a &&& 1

/-- The bit a left shift drops, `(a >> 7) & 1` (R84). -/
def shlFlag (a : Byte) : Byte := (a >>> 7) &&& 1

/-- The two register writes of ADD Vx,Vy, SUB, SUBN, SHR and SHL, in the order VF_WRITE_ORDER
gives; the order shows only for `x = 15` (40_cycle.md R63). -/
def State.writeFlagged (s : State) (x : Reg) (flag result : Byte) : State :=
  match s.params.vfWriteOrder with
  | .flagThenResult => (s.writeReg regF flag).writeReg x result
  | .resultThenFlag => (s.writeReg x result).writeReg regF flag

end Sys2Proof.Machine
end

