-- ==== Sys2Proof/Machine/Alu.lean ====
section
/-! DEFINITION. Register and ALU instructions (spec/42_alu.md R74 to R85). None changes `PC`, touches
memory or raises; sources are sampled before any write (40_cycle.md R61). -/

namespace Sys2Proof.Machine

/-- LD Vx,kk (R74). -/
def execLdImm (x : Reg) (kk : Byte) (s : State) : Result := .next (s.writeReg x kk)

/-- ADD Vx,kk (R75): modulo 256, no flag. -/
def execAddImm (x : Reg) (kk : Byte) (s : State) : Result :=
  .next (s.writeReg x (s.readReg x + kk))

/-- LD Vx,Vy (R76). -/
def execLdReg (x y : Reg) (s : State) : Result := .next (s.writeReg x (s.readReg y))

/-- OR Vx,Vy (R77): `VF` is not touched. -/
def execOrReg (x y : Reg) (s : State) : Result :=
  .next (s.writeReg x (s.readReg x ||| s.readReg y))

/-- AND Vx,Vy (R78). -/
def execAndReg (x y : Reg) (s : State) : Result :=
  .next (s.writeReg x (s.readReg x &&& s.readReg y))

/-- XOR Vx,Vy (R79). -/
def execXorReg (x y : Reg) (s : State) : Result :=
  .next (s.writeReg x (s.readReg x ^^^ s.readReg y))

/-- ADD Vx,Vy (R80). -/
def execAddReg (x y : Reg) (s : State) : Result :=
  let a := s.readReg x
  let b := s.readReg y
  .next (s.writeFlagged x (carryFlag a b) (a + b))

/-- SUB Vx,Vy (R81). -/
def execSubReg (x y : Reg) (s : State) : Result :=
  let a := s.readReg x
  let b := s.readReg y
  .next (s.writeFlagged x (noBorrowFlag a b) (a - b))

/-- SUBN Vx,Vy (R82): the destination is still `V[x]`. -/
def execSubnReg (x y : Reg) (s : State) : Result :=
  let a := s.readReg x
  let b := s.readReg y
  .next (s.writeFlagged x (noBorrowFlag b a) (b - a))

/-- SHR Vx (R83): a logical shift right by one. -/
def execShr (x y : Reg) (s : State) : Result :=
  let a := s.shiftOperand x y
  .next (s.writeFlagged x (shrFlag a) (a >>> 1))

/-- SHL Vx (R84): a shift left by one, modulo 256. -/
def execShl (x y : Reg) (s : State) : Result :=
  let a := s.shiftOperand x y
  .next (s.writeFlagged x (shlFlag a) (a <<< 1))

/-- RND Vx,kk (R85): the Step's argument masked by `kk`. -/
def execRnd (x : Reg) (kk : Byte) (s : State) : Result := .next (s.writeReg x (s.rnd &&& kk))

end Sys2Proof.Machine
end

