-- ==== Sys2Proof/Machine/Display.lean ====
section
/-! DEFINITION. The display instructions and the sprite-compositing unit (spec/44_display.md R94 to
R96). -/

namespace Sys2Proof.Machine

/-- CLS (R95): every cell of the framebuffer to 0; `VF` is not written. -/
def execCls (s : State) : Result := .next (s.setFb (Vector.replicate 32 0))

/-- One sprite byte laid on a framebuffer row with its leftmost pixel, bit 7, at column `x0`. The
byte is mirrored, since bit `col` of a row is column `col`; what passes column 63 is shifted out,
which is the clipping of R94. -/
def spriteMask (b : Byte) (x0 : Nat) : BitVec 64 := (b.reverse.setWidth 64) <<< x0

/-- XOR sprite bytes onto the framebuffer, one row each from `row` down, and say whether any cell
went from 1 to 0. Rows past 31 are clipped (R94, R96). -/
def compose (x0 : Nat) : List Byte → Nat → Framebuffer → Framebuffer × Bool
  | [], _, fb => (fb, false)
  | b :: bs, row, fb =>
    if h : row < 32 then
      let mask := spriteMask b x0
      let below := compose x0 bs (row + 1) (fb.set row (fb[row] ^^^ mask))
      (below.1, (fb[row] &&& mask) != 0 || below.2)
    else (fb, false)

/-- The sprite's origin column, `Vx mod 64` (R94). -/
def originCol (vx : Byte) : Nat := vx.toNat % 64

/-- The sprite's origin row, `Vy mod 32` (R94). -/
def originRow (vy : Byte) : Nat := vy.toNat % 32

/-- DRW Vx,Vy,n (R96). The range is checked on all `n` bytes before anything is written; the
coordinates are sampled before `VF` is. -/
def execDrw (x y : Reg) (n : Nat) (s : State) : Result :=
  conclude (s.checkRange n) s fun _ =>
    let drawn := compose (originCol (s.readReg x)) (s.bytesAt (s.effAddr 0) n)
      (originRow (s.readReg y)) s.fb
    (s.setFb drawn.1).writeReg regF (flagOf drawn.2)

end Sys2Proof.Machine
end

