-- ==== Sys2Proof/Machine/Flow.lean ====
section
/-! DEFINITION. Control transfer (spec/41_flow.md R66 to R73). Each meaning starts with
`PC = ia + 2`. -/

namespace Sys2Proof.Machine

/-- RET (R66). -/
def execRet (s : State) : Result :=
  conclude (s.pop (encode .ret)) s fun (target, s') => s'.setPc target

/-- JP nnn (R67). The target is not checked here. -/
def execJp (nnn : Addr12) (s : State) : Result := .next (s.setPc (zextNnn nnn))

/-- CALL nnn (R68): the pushed value is the advanced `PC`. -/
def execCall (nnn : Addr12) (s : State) : Result :=
  conclude (s.push s.pc (encode (.call nnn))) s fun s' => s'.setPc (zextNnn nnn)

/-- SE Vx,kk (R69). -/
def execSeImm (x : Reg) (kk : Byte) (s : State) : Result := .next (s.skipIf (s.readReg x == kk))

/-- SNE Vx,kk (R70). -/
def execSneImm (x : Reg) (kk : Byte) (s : State) : Result := .next (s.skipIf (s.readReg x != kk))

/-- SE Vx,Vy (R71). -/
def execSeReg (x y : Reg) (s : State) : Result := .next (s.skipIf (s.readReg x == s.readReg y))

/-- SNE Vx,Vy (R72). -/
def execSneReg (x y : Reg) (s : State) : Result := .next (s.skipIf (s.readReg x != s.readReg y))

/-- JP V0,nnn (R73): always `V[0]`; the sum is at most 0x10FE and is not reduced. -/
def execJpV0 (nnn : Addr12) (s : State) : Result :=
  .next (s.setPc (zextNnn nnn + zextByte (s.readReg reg0)))

end Sys2Proof.Machine
end

