-- ==== Sys2Proof/Machine/IndexMemory.lean ====
section
/-! DEFINITION. The index register and memory instructions (spec/43_index_memory.md R88 to R93).
None changes `PC`; none but LD I, ADD I and LD F changes `I`. -/

namespace Sys2Proof.Machine

/-- LD I,nnn (R88). -/
def execLdI (nnn : Addr12) (s : State) : Result := .next (s.setIndex (zextNnn nnn))

/-- ADD I,Vx (R89): modulo 65536, no flag. -/
def execAddI (x : Reg) (s : State) : Result :=
  .next (s.setIndex (s.index + zextByte (s.readReg x)))

/-- LD F,Vx (R90). -/
def execLdF (x : Reg) (s : State) : Result := .next (s.setIndex (glyphAddr (s.readReg x)))

/-- The hundreds, tens and ones of a byte, one digit a byte (R91). -/
def bcdDigits (a : Byte) : List Byte :=
  [BitVec.ofNat 8 (a.toNat / 100), BitVec.ofNat 8 (a.toNat / 10 % 10), BitVec.ofNat 8 (a.toNat % 10)]

/-- LD B,Vx (R91). -/
def execLdB (x : Reg) (s : State) : Result :=
  conclude (s.checkRange 3) s fun _ => s.setBytes (s.effAddr 0) (bcdDigits (s.readReg x))

/-- LD [I],Vx (R92). -/
def execLdMemVx (x : Reg) (s : State) : Result :=
  conclude (s.checkRange (x.val + 1)) s fun _ => s.setBytes (s.effAddr 0) (s.readBlock x)

/-- LD Vx,[I] (R93). -/
def execLdVxMem (x : Reg) (s : State) : Result :=
  conclude (s.checkRange (x.val + 1)) s fun _ =>
    s.setV (writeBlock s.v 0 (s.bytesAt (s.effAddr 0) (x.val + 1)))

end Sys2Proof.Machine
end

