-- ==== Sys2Proof/Machine/KeypadTimers.lean ====
section
/-! DEFINITION. Keypad and timer instructions (spec/45_keypad_timers.md R98 to R103). -/

namespace Sys2Proof.Machine

/-- SKP Vx (R99). -/
def execSkp (x : Reg) (s : State) : Result := conclude (s.keyOperand x) s fun down => s.skipIf down

/-- SKNP Vx (R100). -/
def execSknp (x : Reg) (s : State) : Result := conclude (s.keyOperand x) s fun down => s.skipIf !down

/-- LD Vx,DT (R101). -/
def execLdVxDt (x : Reg) (s : State) : Result := .next (s.writeReg x s.dt)

/-- LD DT,Vx (R102). -/
def execLdDtVx (x : Reg) (s : State) : Result := .next (s.setDt (s.readReg x))

/-- LD ST,Vx (R103). -/
def execLdStVx (x : Reg) (s : State) : Result := .next (s.setSt (s.readReg x))

end Sys2Proof.Machine
end

