-- ==== Sys2Proof/Machine/HostEvents.lean ====
section
/-! DEFINITION. The host's events other than `Step` (spec/60_exceptions.md R119 to R124,
70_reset_and_hazards.md R127 to R129), and the values of the output ports (00_scope.md R6) as
functions of the state. -/

namespace Sys2Proof.Machine

open Config

/-- `Reset` (R128): every item at its reset value, from any state. The model's own fields but `rnd`
are no state of the machine: the parameters, the count of draws and the events still to come stay. -/
def State.onReset (s : State) : State :=
  ((State.resetWith s.params).setDraws s.draws).setPending s.pending

/-- `LoadProgram(bytes)` (R129): the whole image or, if it is too large, nothing (R113). -/
def State.onLoadProgram (s : State) (bytes : List Byte) : State :=
  if progMax < bytes.length then s.raise .programTooLarge (saturate16 bytes.length)
  else (s.setBytes progBase bytes).setReply .ok

/-- `SetKey(index, down)` (R123). -/
def State.onSetKey (s : State) (index : Fin 16) (down : Bool) : State :=
  (s.setKey (s.key.set index down)).setReply .ok

/-- `Tick` as a host event (R119, R120). With TIMER_MODE = PerStep there is no tick input, so the
host's request reaches nothing (assumption log 12). -/
def State.onTick (s : State) : State :=
  match s.params.timerMode with
  | .external => s.tick.setReply .ok
  | .perStep => s.setReply .ok

/-- All 2048 pixels, row-major: bit `64*row + col` is `FB[row][col]` (R124). -/
def Framebuffer.snapshot (fb : Framebuffer) : BitVec 2048 :=
  BitVec.ofFnLE fun k => Framebuffer.pixel fb (k.val / 64) (k.val % 64)

/-- `SnapshotVideo` (R124). -/
def State.onSnapshotVideo (s : State) : State := s.setReply (.video (Framebuffer.snapshot s.fb))

/-- `ReadDelayTimer` (R124). -/
def State.onReadDelayTimer (s : State) : State := s.setReply (.byte s.dt)

/-- `ReadSoundTimer` (R124). -/
def State.onReadSoundTimer (s : State) : State := s.setReply (.byte s.st)

/-- `KeyState(index)` (R124). -/
def State.onKeyState (s : State) (index : Fin 16) : State := s.setReply (.bit s.key[index])

/-- `ReadByte(addr)` (R124). -/
def State.onReadByte (s : State) (addr : Nat) : State :=
  match s.memRead8 addr with
  | .ok b => s.setReply (.byte b)
  | .raises kind info => s.raise kind info

/-! The output ports (00_scope.md R6): names for what the state shows; no timing. -/

/-- The numeric code of an error kind (R105, the spec's decision D21). -/
def ErrorKind.code : ErrorKind → BitVec 3
  | .illegalInstruction => 1
  | .stackOverflow => 2
  | .stackUnderflow => 3
  | .addressOutOfRange => 4
  | .programTooLarge => 5
  | .invalidProgramCounter => 6
  | .keyIndexOutOfRange => 7

/-- The report of the last event, if it ended in an error. -/
def State.report (s : State) : Option ErrorReport :=
  match s.reply with
  | .error r => some r
  | .ok | .video _ | .byte _ | .bit _ => none

/-- `err_kind`: 0 is ok. -/
def State.errKindPort (s : State) : BitVec 3 :=
  match s.report with
  | some r => ErrorKind.code r.kind
  | none => 0

/-- `err_info`. -/
def State.errInfoPort (s : State) : Word :=
  match s.report with
  | some r => r.info
  | none => 0

/-- `err_pc`. -/
def State.errPcPort (s : State) : Word :=
  match s.report with
  | some r => r.pc
  | none => 0

/-- `ld_err`: the last load was refused as too large. -/
def State.ldErrPort (s : State) : Bool :=
  match s.report with
  | some r => r.kind == .programTooLarge
  | none => false

/-- `fb_data` for `fb_addr = 64*row + col`. -/
def State.fbDataPort (s : State) (addr : BitVec 11) : Bool :=
  Framebuffer.pixel s.fb (addr.toNat / 64) (addr.toNat % 64)

/-- `dt`. -/
def State.dtPort (s : State) : Byte := s.dt

/-- `st`. -/
def State.stPort (s : State) : Byte := s.st

end Sys2Proof.Machine
end

