-- ==== Sys2Proof/Machine/Step.lean ====
section
/-! DEFINITION. The machine's step: one event of spec/00_scope.md R5. It serves the oldest pending host
event; with none pending it performs a bare Step whose argument is a free value. -/

namespace Sys2Proof.Machine

/-- Decode and run a fetched word; `s` is the state after the fetch (40_cycle.md R57 steps 3 to 5). -/
def runWord (w : Word) (s : State) : Host.Outcome State Fault Refusal :=
  match decodeWord w with
  | .instr i => endStep (exec i s)
  | .unknown u => .next (s.raiseIllegal u)

/-- `Step(rnd)` (R57). -/
def stepEvent (rnd : Byte) (s : State) : Host.Outcome State Fault Refusal :=
  match (s.beginStep rnd).checkFetch with
  | .ok _ => runWord (s.beginStep rnd).fetchWord (s.beginStep rnd).advancePc
  | .raises kind info => .next ((s.beginStep rnd).raise kind info)

/-- One host event (00_scope.md R5). -/
def serve (e : Event) (s : State) : Host.Outcome State Fault Refusal :=
  match e with
  | .reset => .next s.onReset
  | .loadProgram bytes => .next (s.onLoadProgram bytes)
  | .setKey index down => .next (s.onSetKey index down)
  | .tick => .next s.onTick
  | .step rnd => stepEvent rnd s
  | .snapshotVideo => .next s.onSnapshotVideo
  | .readDelayTimer => .next s.onReadDelayTimer
  | .readSoundTimer => .next s.onReadSoundTimer
  | .keyState index => .next (s.onKeyState index)
  | .readByte addr => .next (s.onReadByte addr)

/-- One event: the oldest pending one, or a bare Step with a free argument. -/
def step (s : State) : Host.Outcome State Fault Refusal :=
  match s.pending with
  | [] => stepEvent (Config.randomByte s.draws) (s.setDraws (s.draws + 1))
  | e :: rest => serve e (s.setPending rest)

/-- `s` with an opcode-table word where `step` fetches its next instruction, so that the very next
step runs it (assumption log 13). -/
def State.withFetchWord (s : State) (nbits w : Nat) : State := s.placeOpcode (tableWord nbits w)

end Sys2Proof.Machine
end

