-- ==== Sys2Proof/Safety.lean ====
section
/-! DEFINITION. What counts as a safe run, and the terms statements use. No event faults or is
refused; a run is safe while no event ends in an error. What software owes for that is
spec/70_reset_and_hazards.md R134. -/

namespace Sys2Proof.Machine

/-- The last event ended in an error (00_scope.md R12). -/
def State.erred (s : State) : Bool := s.report.isSome

/-- The next step of the machine ends without an error. -/
def SafeStep (s : State) : Prop := ∃ t, step s = .next t ∧ t.erred = false

/-- What a fetch owes: `PC` at most 0xFFE, and with PC_CHECK = Strict even and at least 0x200
(R134, 40_cycle.md R58). -/
def FetchOk (s : State) : Prop :=
  s.pc.toNat ≤ 0xFFE ∧
    (s.params.pcCheck = .strict → s.pc.toNat % 2 = 0 ∧ 0x200 ≤ s.pc.toNat)

/-- What each instruction owes (R134): the stack neither full nor empty, the accessed range inside
memory, the key index at most 15. -/
def HandlerOk (i : Instr) (s : State) : Prop :=
  match i with
  | .ret => s.sp.val ≠ 0
  | .call _ => s.sp.val < 16
  | .drw _ _ n => n = 0 ∨ s.index.toNat + n ≤ 4096
  | .ldB _ => s.index.toNat + 3 ≤ 4096
  | .ldMemVx x | .ldVxMem x => s.index.toNat + x.val + 1 ≤ 4096
  | .skp x | .sknp x => s.params.keyIndexPolicy = .fault → (s.readReg x).toNat ≤ 15
  | .cls | .jp _ | .seImm _ _ | .sneImm _ _ | .seReg _ _ | .ldImm _ _ | .addImm _ _
  | .ldReg _ _ | .orReg _ _ | .andReg _ _ | .xorReg _ _ | .addReg _ _ | .subReg _ _
  | .shr _ _ | .subnReg _ _ | .shl _ _ | .sneReg _ _ | .ldI _ | .jpV0 _ | .rnd _ _
  | .ldVxDt _ | .ldDtVx _ | .ldStVx _ | .addI _ | .ldF _ => True

/-! The end of a run (R136). The machine has none of its own: "A model defines the end of a run itself".
This model's: a run is over at its first state that stands at a self-jump, where the program is
finished, or whose last event ended in an error (DESIGN CHOICE, assumption log 21). -/

/-- `PC = a`, and the two bytes there can be fetched and encode `JP a` (R136, 41_flow.md R67). -/
def AtSelfJump (s : State) : Prop :=
  FetchOk s ∧ decodeBytes [s.byteAt s.pc.toNat, s.byteAt (s.pc.toNat + 1)]
    = .instr (.jp (s.pc.setWidth 12)) []

/-- The run is over: at a self-jump, or after an error. The machine would go on (40_cycle.md R65). -/
def RunOver (s : State) : Prop := AtSelfJump s ∨ s.erred = true

/-- The state `n` steps on. -/
def State.after : Nat → State → Option State
  | 0, s => some s
  | n + 1, s =>
    match step s with
    | .next t => State.after n t
    | .fault _ => none
    | .refused _ => none

/-- The run from `s` is over after `n` steps and no fewer, in state `t`. -/
def EndsAfter (n : Nat) (s t : State) : Prop :=
  State.after n s = some t ∧ RunOver t ∧ ∀ k < n, ∀ u, State.after k s = some u → ¬ RunOver u

/-! Frames. -/

/-- The items a frame speaks of: the ten of 10_state.md R13 and the model's own. -/
inductive Item where
  | mem | regs | index | pc | stack | sp | dt | st | fb | key | rnd | draws | pending | reply
deriving DecidableEq, Repr

/-- `t` has every item of `s` but those listed; memory is compared byte by byte, and the
parameters are always kept. -/
def Keeps (changed : List Item) (s t : State) : Prop :=
  t.params = s.params ∧
  (.mem ∉ changed → ∀ a, t.byteAt a = s.byteAt a) ∧
  (.regs ∉ changed → ∀ r, t.readReg r = s.readReg r) ∧
  (.index ∉ changed → t.index = s.index) ∧
  (.pc ∉ changed → t.pc = s.pc) ∧
  (.stack ∉ changed → t.stack = s.stack) ∧
  (.sp ∉ changed → t.sp = s.sp) ∧
  (.dt ∉ changed → t.dt = s.dt) ∧
  (.st ∉ changed → t.st = s.st) ∧
  (.fb ∉ changed → t.fb = s.fb) ∧
  (.key ∉ changed → t.key = s.key) ∧
  (.rnd ∉ changed → t.rnd = s.rnd) ∧
  (.draws ∉ changed → t.draws = s.draws) ∧
  (.pending ∉ changed → t.pending = s.pending) ∧
  (.reply ∉ changed → t.reply = s.reply)

/-- Every register but those listed is kept. -/
def KeepsRegsBut (changed : List Reg) (s t : State) : Prop :=
  ∀ r, r ∉ changed → t.readReg r = s.readReg r

/-- Every byte outside the `n` at `a` is kept. -/
def KeepsBytesOutside (a n : Nat) (s t : State) : Prop :=
  ∀ b, b < a ∨ a + n ≤ b → t.byteAt b = s.byteAt b

/-! Invariants. -/

/-- The memory is in its canonical form. -/
def MemoryCanonical (s : State) : Prop := Memory.wf s.params.glyphRom s.mem = true

/-- The bounds of 10_state.md R17: `PC` never passes 0x10FE and no return address passes 0x1000; with
PC_CHECK = Strict every return address is even (41_flow.md R66). -/
def PcBounds (s : State) : Prop :=
  s.pc.toNat ≤ 0x10FE ∧
  (∀ k : Fin 16, (s.stack[k]).toNat ≤ 0x1000) ∧
  (s.params.pcCheck = .strict → ∀ k : Fin 16, (s.stack[k]).toNat % 2 = 0)

/-! The sprite of DRW, pixel by pixel (44_display.md R94, R97). -/

/-- The sprite pixel DRW lays on `FB[row][col]`: bit `7 - (col - x0)` of byte `row - y0` of the sprite
at `I`, and 0 outside the sprite (R97(a)'s `m[row][col]`). -/
def State.spritePixel (s : State) (x y : Reg) (n row col : Nat) : Bool :=
  let x0 := (s.readReg x).toNat % 64
  let y0 := (s.readReg y).toNat % 32
  decide (y0 ≤ row ∧ row < y0 + n ∧ x0 ≤ col ∧ col < x0 + 8) &&
    (s.byteAt (s.index.toNat + (row - y0))).getLsbD (7 - (col - x0))

/-- `k` Ticks in a row (60_exceptions.md R121). -/
def State.ticks : Nat → State → State
  | 0, s => s
  | k + 1, s => State.ticks k s.tick

end Sys2Proof.Machine
end

