-- ==== Sys2Proof/Certificates/Slice0/Obligations.lean ====
section
/-! DEFINITION. The statements for the provers, each over every state of the machine and so over every
value of the open parameters of spec/00_scope.md R8, which the state holds. Where a clause rests on a
decision the spec marks as its own, the docstring names it. -/

open Sys2Proof Sys2Proof.Machine Sys2Proof.Config

/-! Encoding (30_encoding.md). -/

/-- The bytes of a well-formed instruction, with any bytes after them, decode to that instruction and
those bytes (R44, R49, R54; the patterns are the spec's decision D5, assumption log 10). -/
def Obligations.DecodeOfEncodedBytesGivesTheInstruction : Prop :=
  ∀ (i : Instr) (rest : List Byte), i.wf = true →
    decodeBytes (wordBytes (encode i) ++ rest) = .instr i rest

/-- A word that decodes to an instruction is that instruction's encoding, and the decoder gives
well-formed instructions only (R54; `y` of SHR and SHL is kept in the term, assumption log 11). -/
def Obligations.EncodeOfDecodedWordGivesTheWord : Prop :=
  ∀ (w : Word) (i : Instr), decodeWord w = .instr i → i.wf = true ∧ encode i = w

/-- With SHIFT_SOURCE = Vx, decode then assemble is the identity except that the shift words lose
their `y`; with SHIFT_SOURCE = Vy it is the identity (R51, R54; the spec's decision D3). -/
def Obligations.AssemblerZeroesTheIgnoredShiftField : Prop :=
  ∀ (w : Word) (i : Instr), decodeWord w = .instr i →
    assemble .vx i = (if w &&& 0xF00F = 0x8006 ∨ w &&& 0xF00F = 0x800E then w &&& 0xFF0F else w) ∧
    assemble .vy i = w

/-- The decoder is the opcode map of R48: a word is row k's instruction exactly when
`w & mask = match` for row k, and `Unknown(w)` when no row matches (R48, R49; decision D5). -/
def Obligations.DecoderAgreesWithOpcodeMap : Prop :=
  ∀ w : Word,
    (∀ r ∈ opcodeRows, r.selects w = true →
      ∃ i, decodeWord w = .instr i ∧ i.rowNumber = r.number) ∧
    (∀ i, decodeWord w = .instr i →
      ∃ r ∈ opcodeRows, r.selects w = true ∧ i.rowNumber = r.number) ∧
    ((∀ r ∈ opcodeRows, r.selects w = false) → decodeWord w = .unknown w)

/-- The `Unknown` words are exactly those of R50's table (decisions D4, D5, D6). -/
def Obligations.UnknownWordsAreTheListedGroups : Prop :=
  ∀ w : Word, decodeWord w = .unknown w ↔
    (w.toNat / 4096 = 0 ∧ w.toNat ≠ 0x00E0 ∧ w.toNat ≠ 0x00EE) ∨
    (w.toNat / 4096 = 5 ∧ w.toNat % 16 ≠ 0) ∨
    (w.toNat / 4096 = 8 ∧ w.toNat % 16 ∈ [0x8, 0x9, 0xA, 0xB, 0xC, 0xD, 0xF]) ∨
    (w.toNat / 4096 = 9 ∧ w.toNat % 16 ≠ 0) ∨
    (w.toNat / 4096 = 14 ∧ w.toNat % 256 ∉ [0x9E, 0xA1]) ∨
    (w.toNat / 4096 = 15 ∧
      w.toNat % 256 ∉ [0x07, 0x15, 0x18, 0x1E, 0x29, 0x33, 0x55, 0x65])

/-- A few words as the spec writes them out (R45, R48, R54; the three of the source's scenario first). -/
def Obligations.SampleWordsDecodeAsWritten : Prop :=
  decodeWord 0x6A05 = .instr (.ldImm 0xA 0x05) ∧
  decodeWord 0x7A05 = .instr (.addImm 0xA 0x05) ∧
  decodeWord 0x3A0A = .instr (.seImm 0xA 0x0A) ∧
  decodeWord 0x00E0 = .instr .cls ∧
  decodeWord 0x00EE = .instr .ret ∧
  decodeWord 0x1ABC = .instr (.jp 0xABC) ∧
  decodeWord 0x8127 = .instr (.subnReg 1 2) ∧
  decodeWord 0xD125 = .instr (.drw 1 2 5) ∧
  decodeWord 0xE1A1 = .instr (.sknp 1) ∧
  decodeWord 0xF355 = .instr (.ldMemVx 3) ∧
  decodeWord 0xF10A = .unknown 0xF10A ∧
  decodeWord 0x0000 = .unknown 0x0000

/-! The Step and its errors (40_cycle.md, 60_exceptions.md). -/

/-- Where the two bytes at `PC` decode to `i` and can be fetched, the machine's step is `exec i` from
the state after the fetch, then the closing timer bookkeeping: with no event pending the argument is
the free byte, with `Step(r)` pending it is `r` (R57, R59; the free byte and the list of pending events
are the model's, assumption log 2 and 4). -/
def Obligations.StepRunsTheDecodedInstruction : Prop :=
  ∀ (s : State) (i : Instr), FetchOk s →
    decodeBytes [s.byteAt s.pc.toNat, s.byteAt (s.pc.toNat + 1)] = .instr i [] →
    (s.pending = [] →
      step s = endStep (exec i { s with
        pc := s.pc + 2, rnd := randomByte s.draws, draws := s.draws + 1, reply := .ok })) ∧
    (∀ r rest, s.pending = .step r :: rest →
      step s = endStep (exec i { s with pc := s.pc + 2, rnd := r, pending := rest, reply := .ok }))

/-- A Step whose handler completed ends with one `Tick` exactly when TIMER_MODE = PerStep, and one that
raised with none (R64; the mode is the spec's decision D2). -/
def Obligations.CompletedStepTicksOnlyPerStep : Prop :=
  ∀ t : State,
    (t.params.timerMode = .perStep → t.reply = .ok → endStep (.next t) = .next t.tick) ∧
    (t.params.timerMode = .external → endStep (.next t) = .next t) ∧
    (t.erred = true → endStep (.next t) = .next t)

/-- An `Unknown` word ends the Step with IllegalInstruction, `info` the word and `pc = ia + 2`; only
`PC` has changed (R60, R106). -/
def Obligations.UnknownWordRaisesIllegalInstruction : Prop :=
  ∀ (s : State) (rnd : Byte) (w : Word), FetchOk s →
    decodeBytes [s.byteAt s.pc.toNat, s.byteAt (s.pc.toNat + 1)] = .unknown w [] →
    stepEvent rnd s = .next { s with
      rnd := rnd, pc := s.pc + 2, reply := .error ⟨.illegalInstruction, w, s.pc + 2⟩ }

/-- A fetch that cannot take place raises and changes nothing: the bounds are tested first, then with
PC_CHECK = Strict the validity of `PC` (R58, R109(a), R111; decisions D10, D11, D14). -/
def Obligations.RefusedFetchChangesNothing : Prop :=
  ∀ (s : State) (rnd : Byte),
    (0xFFE < s.pc.toNat → stepEvent rnd s = .next { s with
      rnd := rnd,
      reply := .error ⟨.addressOutOfRange, BitVec.ofNat 16 (max s.pc.toNat 4096), s.pc⟩ }) ∧
    (s.pc.toNat ≤ 0xFFE → s.params.pcCheck = .strict →
      s.pc.toNat % 2 = 1 ∨ s.pc.toNat < 0x200 →
      stepEvent rnd s = .next { s with
        rnd := rnd, reply := .error ⟨.invalidProgramCounter, s.pc, s.pc⟩ }) ∧
    (s.params.pcCheck = .boundsOnly → ∀ t r, stepEvent rnd s = .next t → t.reply = .error r →
      r.kind ≠ .invalidProgramCounter)

/-- Errors are precise: whatever the instruction, a Step that ends in an error has changed nothing if
the fetch was refused, and otherwise `PC` alone, to `ia + 2`; the `pc` reported is the one `PC` holds
(R62, R110; decisions D9, D10, D22). -/
def Obligations.RaisedErrorLeavesOnlyTheProgramCounter : Prop :=
  ∀ (s t : State) (rnd : Byte) (r : ErrorReport), stepEvent rnd s = .next t → t.reply = .error r →
    r.pc = t.pc ∧
    ((¬ FetchOk s ∧ t = { s with rnd := rnd, reply := .error r }) ∨
     (FetchOk s ∧ t = { s with rnd := rnd, pc := s.pc + 2, reply := .error r }))

/-- A Step always ends in a next state, and without an error exactly when the software kept every
obligation of R134: a `PC` that can be fetched from, one of the 33 opcodes, and what that instruction
owes (R134; decisions D11, D12). -/
def Obligations.StepErrsExactlyWhenSoftwareBreaksAnObligation : Prop :=
  ∀ (s : State) (rnd : Byte), ∃ t, stepEvent rnd s = .next t ∧
    (t.erred = false ↔ FetchOk s ∧
      ∃ i, decodeBytes [s.byteAt s.pc.toNat, s.byteAt (s.pc.toNat + 1)] = .instr i [] ∧
        HandlerOk i s)

/-- No event stops the machine: from every state the step answers a next state (R65, R104; that an
error is a next state is assumption log 1). -/
def Obligations.EveryEventEndsInANextState : Prop :=
  ∀ s : State, ∃ t, step s = .next t

/-! Invariants. -/

/-- Every step, of whatever event, keeps the memory's canonical form (assumption log 6; R28, R33). -/
def Obligations.StepKeepsMemoryCanonical : Prop :=
  ∀ s t : State, MemoryCanonical s → step s = .next t → MemoryCanonical t

/-- Every step keeps the bounds of R17 and R66: `PC` at most 0x10FE, return addresses at most 0x1000
and, with PC_CHECK = Strict, even. -/
def Obligations.StepKeepsProgramCounterBounds : Prop :=
  ∀ s t : State, PcBounds s → step s = .next t → PcBounds t

/-- The two invariants hold right after reset (R17, R27; assumption log 6). -/
def Obligations.ResetMeetsBothInvariants : Prop :=
  MemoryCanonical State.reset ∧ PcBounds State.reset

/-- No event changes the parameters (R8; they stand in the state by assumption log 5). -/
def Obligations.NoEventChangesTheParameters : Prop :=
  ∀ s t : State, step s = .next t → t.params = s.params

/-! Who writes what (10_state.md). -/

/-- `I` is written by LD I, ADD I and LD F only; `PC` by the jumps, CALL, RET and the skips only; CALL
alone writes `STACK`, CALL and RET alone move `SP`; `DT` and `ST` have their one load each; no
instruction writes `KEY` (R16, R17, R19, R20, R22, R26; decision D16 for the block transfers). -/
def Obligations.SpecialRegistersHaveOnlyTheirWriters : Prop :=
  ∀ (i : Instr) (s t : State), exec i s = .next t →
    (t.index ≠ s.index → (∃ nnn, i = .ldI nnn) ∨ (∃ x, i = .addI x) ∨ ∃ x, i = .ldF x) ∧
    (t.pc ≠ s.pc → i = .ret ∨ (∃ nnn, i = .jp nnn ∨ i = .call nnn ∨ i = .jpV0 nnn) ∨
      (∃ x kk, i = .seImm x kk ∨ i = .sneImm x kk) ∨ (∃ x y, i = .seReg x y ∨ i = .sneReg x y) ∨
      ∃ x, i = .skp x ∨ i = .sknp x) ∧
    (t.stack ≠ s.stack → ∃ nnn, i = .call nnn) ∧
    (t.sp ≠ s.sp → i = .ret ∨ ∃ nnn, i = .call nnn) ∧
    (t.dt ≠ s.dt → ∃ x, i = .ldDtVx x) ∧
    (t.st ≠ s.st → ∃ x, i = .ldStVx x) ∧
    t.key = s.key

/-- Memory is changed by LD B and LD [I],Vx only, the framebuffer by CLS and DRW only (R21, R37). -/
def Obligations.MemoryAndFramebufferHaveOnlyTheirWriters : Prop :=
  ∀ (i : Instr) (s t : State), exec i s = .next t →
    ((∃ a, t.byteAt a ≠ s.byteAt a) → ∃ x, i = .ldB x ∨ i = .ldMemVx x) ∧
    (t.fb ≠ s.fb → i = .cls ∨ ∃ x y n, i = .drw x y n)

/-- `VF` changes as a side effect of six instructions only; any other that changes it names `VF` as
its destination (R15; decision D17 for the logical operations). -/
def Obligations.FlagHasOnlyItsWriters : Prop :=
  ∀ (i : Instr) (s t : State), exec i s = .next t → t.readReg regF ≠ s.readReg regF →
    (∃ x y, i = .addReg x y ∨ i = .subReg x y ∨ i = .subnReg x y ∨ i = .shr x y ∨ i = .shl x y) ∨
    (∃ x y n, i = .drw x y n) ∨
    (∃ kk, i = .ldImm regF kk ∨ i = .addImm regF kk ∨ i = .rnd regF kk) ∨
    (∃ y, i = .ldReg regF y ∨ i = .orReg regF y ∨ i = .andReg regF y ∨ i = .xorReg regF y) ∨
    i = .ldVxDt regF ∨ i = .ldVxMem regF

/-- `ST` is read by no instruction: run from two states that differ in `ST` alone, an instruction gives
states that differ in `ST` alone, and in nothing after LD ST,Vx (R20). -/
def Obligations.SoundTimerIsReadByNoInstruction : Prop :=
  ∀ (i : Instr) (s : State) (b : Byte), ∃ t, exec i s = .next t ∧
    ((∃ x, i = .ldStVx x) → exec i { s with st := b } = .next t) ∧
    ((∀ x, i ≠ .ldStVx x) → exec i { s with st := b } = .next { t with st := b })

/-- `DT` never increases except by LD DT,Vx, whatever event is served (R121(b)). -/
def Obligations.DelayTimerRisesOnlyByItsLoad : Prop :=
  ∀ s t : State, step s = .next t → s.dt.toNat < t.dt.toNat →
    FetchOk s ∧ (s.pending = [] ∨ ∃ r rest, s.pending = .step r :: rest) ∧
    ∃ x, decodeBytes [s.byteAt s.pc.toNat, s.byteAt (s.pc.toNat + 1)] = .instr (.ldDtVx x) []

/-- `KEY` changes by the host's `SetKey` and `Reset` only: no Step and no other event touches it (R22;
decision D28). -/
def Obligations.KeysChangeOnlyByTheHost : Prop :=
  ∀ s t : State, step s = .next t → t.key ≠ s.key →
    (∃ k down rest, s.pending = .setKey k down :: rest) ∨ ∃ rest, s.pending = .reset :: rest

/-! Loads, arithmetic and logic (42_alu.md). -/

/-- LD Vx,kk and LD Vx,Vy give `V[x]` the immediate and the value of `V[y]`, and change nothing else
(R74, R76). -/
def Obligations.LoadImmediateAndCopyWriteOneRegister : Prop :=
  ∀ (s : State) (x y : Reg) (kk : Byte),
    (∃ t, exec (.ldImm x kk) s = .next t ∧ t.readReg x = kk ∧
      KeepsRegsBut [x] s t ∧ Keeps [.regs] s t) ∧
    (∃ t, exec (.ldReg x y) s = .next t ∧ t.readReg x = s.readReg y ∧
      KeepsRegsBut [x] s t ∧ Keeps [.regs] s t)

/-- ADD Vx,kk adds modulo 256 and writes no flag: `V[x]` is all that changes (R75). -/
def Obligations.AddImmediateWrapsAndSparesTheFlag : Prop :=
  ∀ (s : State) (x : Reg) (kk : Byte), ∃ t, exec (.addImm x kk) s = .next t ∧
    (t.readReg x).toNat = ((s.readReg x).toNat + kk.toNat) % 256 ∧
    KeepsRegsBut [x] s t ∧ Keeps [.regs] s t

/-- OR, AND and XOR combine the registers bit by bit and leave `VF` alone unless it is the destination
(R77, R78, R79; decision D17 for the flag). -/
def Obligations.LogicalOperationsCombineBits : Prop :=
  ∀ (s : State) (x y : Reg),
    (∃ t, exec (.orReg x y) s = .next t ∧ KeepsRegsBut [x] s t ∧ Keeps [.regs] s t ∧
      ∀ k < 8, (t.readReg x).getLsbD k = ((s.readReg x).getLsbD k || (s.readReg y).getLsbD k)) ∧
    (∃ t, exec (.andReg x y) s = .next t ∧ KeepsRegsBut [x] s t ∧ Keeps [.regs] s t ∧
      ∀ k < 8, (t.readReg x).getLsbD k = ((s.readReg x).getLsbD k && (s.readReg y).getLsbD k)) ∧
    (∃ t, exec (.xorReg x y) s = .next t ∧ KeepsRegsBut [x] s t ∧ Keeps [.regs] s t ∧
      ∀ k < 8, (t.readReg x).getLsbD k = ((s.readReg x).getLsbD k ^^ (s.readReg y).getLsbD k))

/-- ADD Vx,Vy: the sum modulo 256 and `VF = 1` iff the sum passes 255. With `x = 15` the second of the
two writes survives, in the order VF_WRITE_ORDER gives (R63, R80; decisions D7, D8). -/
def Obligations.AddRegisterGivesSumAndCarry : Prop :=
  ∀ (s : State) (x y : Reg), ∃ t, exec (.addReg x y) s = .next t ∧
    (x ≠ regF ∨ s.params.vfWriteOrder = .flagThenResult →
      (t.readReg x).toNat = ((s.readReg x).toNat + (s.readReg y).toNat) % 256) ∧
    (x ≠ regF ∨ s.params.vfWriteOrder = .resultThenFlag →
      t.readReg regF = if 255 < (s.readReg x).toNat + (s.readReg y).toNat then 1 else 0) ∧
    KeepsRegsBut [x, regF] s t ∧ Keeps [.regs] s t

/-- SUB and SUBN: the difference modulo 256 and `VF = 1` iff there was no borrow; with `x = 15` as for
ADD (R63, R81, R82; decisions D7, D8). -/
def Obligations.SubtractionsGiveDifferenceAndNoBorrow : Prop :=
  ∀ (s : State) (x y : Reg),
    (∃ t, exec (.subReg x y) s = .next t ∧
      (x ≠ regF ∨ s.params.vfWriteOrder = .flagThenResult →
        (t.readReg x).toNat = ((s.readReg x).toNat + 256 - (s.readReg y).toNat) % 256) ∧
      (x ≠ regF ∨ s.params.vfWriteOrder = .resultThenFlag →
        t.readReg regF = if (s.readReg y).toNat ≤ (s.readReg x).toNat then 1 else 0) ∧
      KeepsRegsBut [x, regF] s t ∧ Keeps [.regs] s t) ∧
    (∃ t, exec (.subnReg x y) s = .next t ∧
      (x ≠ regF ∨ s.params.vfWriteOrder = .flagThenResult →
        (t.readReg x).toNat = ((s.readReg y).toNat + 256 - (s.readReg x).toNat) % 256) ∧
      (x ≠ regF ∨ s.params.vfWriteOrder = .resultThenFlag →
        t.readReg regF = if (s.readReg x).toNat ≤ (s.readReg y).toNat then 1 else 0) ∧
      KeepsRegsBut [x, regF] s t ∧ Keeps [.regs] s t)

/-- SHR and SHL: half and double modulo 256 of the register SHIFT_SOURCE names, and `VF` the bit
shifted out; with `x = 15` as for ADD (R63, R83, R84; decisions D3, D8). -/
def Obligations.ShiftsGiveHalfAndDoubleAndTheLostBit : Prop :=
  ∀ (s : State) (x y src : Reg),
    (s.params.shiftSource = .vx → src = x) → (s.params.shiftSource = .vy → src = y) →
    (∃ t, exec (.shr x y) s = .next t ∧
      (x ≠ regF ∨ s.params.vfWriteOrder = .flagThenResult →
        (t.readReg x).toNat = (s.readReg src).toNat / 2) ∧
      (x ≠ regF ∨ s.params.vfWriteOrder = .resultThenFlag →
        (t.readReg regF).toNat = (s.readReg src).toNat % 2) ∧
      KeepsRegsBut [x, regF] s t ∧ Keeps [.regs] s t) ∧
    (∃ t, exec (.shl x y) s = .next t ∧
      (x ≠ regF ∨ s.params.vfWriteOrder = .flagThenResult →
        (t.readReg x).toNat = 2 * (s.readReg src).toNat % 256) ∧
      (x ≠ regF ∨ s.params.vfWriteOrder = .resultThenFlag →
        (t.readReg regF).toNat = (s.readReg src).toNat / 128) ∧
      KeepsRegsBut [x, regF] s t ∧ Keeps [.regs] s t)

/-- The identities of R86 for `x` other than 15: `result + 256 * VF = a + b` after ADD, and
`result + b = a + 256 * (1 - VF)` after SUB. -/
def Obligations.FlagMakesSumsAndDifferencesExact : Prop :=
  ∀ (s t : State) (x y : Reg), x ≠ regF →
    (exec (.addReg x y) s = .next t →
      (t.readReg x).toNat + 256 * (t.readReg regF).toNat
        = (s.readReg x).toNat + (s.readReg y).toNat) ∧
    (exec (.subReg x y) s = .next t → (t.readReg regF).toNat ≤ 1 ∧
      (t.readReg x).toNat + (s.readReg y).toNat
        = (s.readReg x).toNat + 256 * (1 - (t.readReg regF).toNat))

/-- RND gives `V[x]` the Step's argument with the bits outside `kk` cleared, whatever the argument,
which is a free value (R85). -/
def Obligations.RandomByteIsMasked : Prop :=
  ∀ (s : State) (x : Reg) (kk : Byte), ∃ t, exec (.rnd x kk) s = .next t ∧
    (∀ k < 8, (t.readReg x).getLsbD k = (s.rnd.getLsbD k && kk.getLsbD k)) ∧
    KeepsRegsBut [x] s t ∧ Keeps [.regs] s t

/-! Control transfer (41_flow.md). -/

/-- JP nnn writes the zero-extended immediate to `PC` and nothing else; a target that cannot be fetched
from is accepted and shows at the next fetch (R67; decisions D11, D14 for the errors there). -/
def Obligations.JumpAcceptsEveryTarget : Prop :=
  ∀ (s : State) (nnn : Addr12) (rnd : Byte), ∃ t, exec (.jp nnn) s = .next t ∧
    t.pc.toNat = nnn.toNat ∧ Keeps [.pc] s t ∧
    (nnn.toNat = 0xFFF → ∃ u, stepEvent rnd t = .next u ∧
      u.reply = .error ⟨.addressOutOfRange, 0x1000, t.pc⟩) ∧
    (nnn.toNat ≠ 0xFFF → s.params.pcCheck = .strict → nnn.toNat % 2 = 1 ∨ nnn.toNat < 0x200 →
      ∃ u, stepEvent rnd t = .next u ∧ u.reply = .error ⟨.invalidProgramCounter, t.pc, t.pc⟩)

/-- JP V0,nnn adds `V0`, never another register, and the sum is not reduced modulo 4096 (R73; decision
D17). -/
def Obligations.JumpAddsRegisterZeroWithoutWrap : Prop :=
  ∀ (s : State) (nnn : Addr12), ∃ t, exec (.jpV0 nnn) s = .next t ∧
    t.pc.toNat = nnn.toNat + (s.readReg reg0).toNat ∧ t.pc.toNat ≤ 0x10FE ∧ Keeps [.pc] s t

/-- CALL below depth 16 pushes the address of the next instruction and jumps; at depth 16 it raises
StackOverflow with the opcode and changes nothing else (R68, R107; decision D18 for `SP` as the depth). -/
def Obligations.CallPushesReturnAddressOrOverflows : Prop :=
  ∀ (s : State) (nnn : Addr12),
    (s.sp.val < 16 → ∃ t, exec (.call nnn) s = .next t ∧ t.pc.toNat = nnn.toNat ∧
      t.sp.val = s.sp.val + 1 ∧
      (∀ k : Fin 16, t.stack[k] = if k.val = s.sp.val then s.pc else s.stack[k]) ∧
      Keeps [.pc, .stack, .sp] s t) ∧
    (s.sp.val = 16 → exec (.call nnn) s = .next { s with
      reply := .error ⟨.stackOverflow, BitVec.ofNat 16 (0x2000 + nnn.toNat), s.pc⟩ })

/-- RET pops the top return address into `PC`; on an empty stack it raises StackUnderflow and changes
nothing else (R66, R108; decision D18 for `SP` as the depth). -/
def Obligations.ReturnPopsOrUnderflows : Prop :=
  ∀ s : State,
    (s.sp.val ≠ 0 → ∃ t, exec .ret s = .next t ∧ t.sp.val + 1 = s.sp.val ∧
      (∀ k : Fin 16, k.val + 1 = s.sp.val → t.pc = s.stack[k]) ∧ Keeps [.pc, .sp] s t) ∧
    (s.sp.val = 0 → exec .ret s = .next { s with
      reply := .error ⟨.stackUnderflow, 0x00EE, s.pc⟩ })

/-- A RET that finds the stack as CALL left it goes back to the instruction after the CALL, and the
depth is what it was (R66, R68: the source's testable property; decision D18). -/
def Obligations.CallThenReturnRestoresPcAndDepth : Prop :=
  ∀ (s : State) (nnn : Addr12), s.sp.val < 16 → ∃ t, exec (.call nnn) s = .next t ∧
    ∀ u : State, u.sp = t.sp → u.stack = t.stack →
      ∃ w, exec .ret u = .next w ∧ w.pc = s.pc ∧ w.sp = s.sp

/-- SE and SNE skip the next instruction exactly when their condition holds, and change nothing but
`PC` (R69, R70, R71, R72). -/
def Obligations.CompareSkipsMoveOnlyThePc : Prop :=
  ∀ (s : State) (x y : Reg) (kk : Byte),
    (∃ t, exec (.seImm x kk) s = .next t ∧ Keeps [.pc] s t ∧
      t.pc = if s.readReg x = kk then s.pc + 2 else s.pc) ∧
    (∃ t, exec (.sneImm x kk) s = .next t ∧ Keeps [.pc] s t ∧
      t.pc = if s.readReg x = kk then s.pc else s.pc + 2) ∧
    (∃ t, exec (.seReg x y) s = .next t ∧ Keeps [.pc] s t ∧
      t.pc = if s.readReg x = s.readReg y then s.pc + 2 else s.pc) ∧
    (∃ t, exec (.sneReg x y) s = .next t ∧ Keeps [.pc] s t ∧
      t.pc = if s.readReg x = s.readReg y then s.pc else s.pc + 2)

/-! Keypad and timers (45_keypad_timers.md, 60_exceptions.md). -/

/-- SKP and SKNP skip when key number `Vx` is down, and up. A number above 15 selects its low four bits
with KEY_INDEX_POLICY = MaskLow4 (R98, R99, R100; decision D12). -/
def Obligations.KeySkipsFollowTheSelectedKey : Prop :=
  ∀ (s : State) (x : Reg) (k : Fin 16), k.val = (s.readReg x).toNat % 16 →
    (s.params.keyIndexPolicy = .fault → (s.readReg x).toNat ≤ 15) →
    (∃ t, exec (.skp x) s = .next t ∧ Keeps [.pc] s t ∧
      t.pc = if s.key[k] = true then s.pc + 2 else s.pc) ∧
    (∃ t, exec (.sknp x) s = .next t ∧ Keeps [.pc] s t ∧
      t.pc = if s.key[k] = true then s.pc else s.pc + 2)

/-- With KEY_INDEX_POLICY = Fault, SKP and SKNP on a number above 15 raise KeyIndexOutOfRange with that
number and change nothing else (R98, R112; decision D12). -/
def Obligations.KeyNumberAboveFifteenRaises : Prop :=
  ∀ (s : State) (x : Reg), s.params.keyIndexPolicy = .fault → 15 < (s.readReg x).toNat →
    exec (.skp x) s = .next { s with
      reply := .error ⟨.keyIndexOutOfRange, BitVec.ofNat 16 (s.readReg x).toNat, s.pc⟩ } ∧
    exec (.sknp x) s = .next { s with
      reply := .error ⟨.keyIndexOutOfRange, BitVec.ofNat 16 (s.readReg x).toNat, s.pc⟩ }

/-- LD Vx,DT, LD DT,Vx and LD ST,Vx copy one value and change nothing else. Run as a whole Step with
TIMER_MODE = PerStep, LD DT,Vx and LD ST,Vx end with the new value counted down once (R101, R102,
R103; decision D2). -/
def Obligations.TimerLoadsCopyOneValue : Prop :=
  ∀ (s : State) (x : Reg),
    (∃ t, exec (.ldVxDt x) s = .next t ∧ t.readReg x = s.dt ∧
      KeepsRegsBut [x] s t ∧ Keeps [.regs] s t) ∧
    (∃ t, exec (.ldDtVx x) s = .next t ∧ t.dt = s.readReg x ∧ Keeps [.dt] s t ∧
      (s.params.timerMode = .perStep → s.reply = .ok → ∃ u, endStep (.next t) = .next u ∧
        u.dt.toNat = (s.readReg x).toNat - 1)) ∧
    (∃ t, exec (.ldStVx x) s = .next t ∧ t.st = s.readReg x ∧ Keeps [.st] s t ∧
      (s.params.timerMode = .perStep → s.reply = .ok → ∃ u, endStep (.next t) = .next u ∧
        u.st.toNat = (s.readReg x).toNat - 1))

/-- `Tick` counts each timer down by one if it is above 0, leaves a timer at 0 there, and changes nothing
else (R119). -/
def Obligations.TickCountsEachTimerDownToZero : Prop :=
  ∀ s : State,
    (s.dt.toNat > 0 → s.tick.dt.toNat = s.dt.toNat - 1) ∧ (s.dt = 0 → s.tick.dt = 0) ∧
    (s.st.toNat > 0 → s.tick.st.toNat = s.st.toNat - 1) ∧ (s.st = 0 → s.tick.st = 0) ∧
    Keeps [.dt, .st] s s.tick

/-- After `k` Ticks with no write between them a timer that held `a` holds `max(a - k, 0)` (R121(a)). -/
def Obligations.TicksSubtractAndSaturate : Prop :=
  ∀ (k : Nat) (s : State),
    (State.ticks k s).dt.toNat = s.dt.toNat - k ∧ (State.ticks k s).st.toNat = s.st.toNat - k ∧
    Keeps [.dt, .st] s (State.ticks k s)

/-- Every Step of TIMER_MODE = PerStep is a Step of External followed by one `Tick` when it ended ok
(R64, R120; decision D2). -/
def Obligations.PerStepIsExternalThenTick : Prop :=
  ∀ (s : State) (rnd : Byte), s.params.timerMode = .perStep →
    ∃ t, stepEvent rnd { s with params := { s.params with timerMode := .external } } = .next t ∧
      stepEvent rnd s
        = .next { (if t.erred = true then t else t.tick) with params := s.params }

/-! Index register and memory (43_index_memory.md). -/

/-- LD I,nnn writes the zero-extended immediate to `I` and nothing else (R88). -/
def Obligations.LoadIndexWritesTheImmediate : Prop :=
  ∀ (s : State) (nnn : Addr12), ∃ t, exec (.ldI nnn) s = .next t ∧
    t.index.toNat = nnn.toNat ∧ Keeps [.index] s t

/-- ADD I,Vx adds modulo 65536 and writes no flag; LD F,Vx gives `0x050 + 5 Vx` of the whole register
value (R89, R90; decisions D13, D15). -/
def Obligations.IndexArithmeticIsSixteenBits : Prop :=
  ∀ (s : State) (x : Reg),
    (∃ t, exec (.addI x) s = .next t ∧
      t.index.toNat = (s.index.toNat + (s.readReg x).toNat) % 65536 ∧ Keeps [.index] s t) ∧
    (∃ t, exec (.ldF x) s = .next t ∧
      t.index.toNat = 0x050 + 5 * (s.readReg x).toNat ∧ Keeps [.index] s t)

/-- LD B,Vx stores the three decimal digits at `I`, `I + 1`, `I + 2` and changes no other byte and
nothing else (R87, R91; decision D16 for `I`). The memory is in its canonical form, an invariant. -/
def Obligations.DecimalStoreWritesThreeDigits : Prop :=
  ∀ (s : State) (x : Reg), MemoryCanonical s → s.effAddr 2 < 4096 →
    ∃ t, exec (.ldB x) s = .next t ∧
      (t.byteAt (s.effAddr 0)).toNat = (s.readReg x).toNat / 100 ∧
      (t.byteAt (s.effAddr 1)).toNat = (s.readReg x).toNat / 10 % 10 ∧
      (t.byteAt (s.effAddr 2)).toNat = (s.readReg x).toNat % 10 ∧
      KeepsBytesOutside (s.effAddr 0) 3 s t ∧ Keeps [.mem] s t

/-- LD [I],Vx stores `V0` to `Vx` at `I` to `I + x` and changes no other byte and nothing else, `I`
among it (R87, R92; decision D16). The memory is in its canonical form. -/
def Obligations.BlockStoreWritesRegistersInOrder : Prop :=
  ∀ (s : State) (x : Reg), MemoryCanonical s → s.effAddr x.val < 4096 →
    ∃ t, exec (.ldMemVx x) s = .next t ∧
      (∀ k : Reg, k ≤ x → t.byteAt (s.effAddr k.val) = s.readReg k) ∧
      KeepsBytesOutside (s.effAddr 0) (x.val + 1) s t ∧ Keeps [.mem] s t

/-- LD Vx,[I] loads `V0` to `Vx` from `I` to `I + x`; the registers above `x` and everything else are
untouched (R87, R93; decision D16). -/
def Obligations.BlockLoadReadsRegistersInOrder : Prop :=
  ∀ (s : State) (x : Reg), s.effAddr x.val < 4096 →
    ∃ t, exec (.ldVxMem x) s = .next t ∧
      (∀ k : Reg, k ≤ x → t.readReg k = s.byteAt (s.effAddr k.val)) ∧
      (∀ k : Reg, x < k → t.readReg k = s.readReg k) ∧ Keeps [.regs] s t

/-- An instruction whose range passes the end of memory raises AddressOutOfRange with `max(I, 4096)` and
writes nothing (R87, R109(b); decisions D9, D14). -/
def Obligations.RangePastMemoryRaisesAndWritesNothing : Prop :=
  ∀ s : State,
    (∀ x, 4096 ≤ s.effAddr 2 → exec (.ldB x) s = .next { s with
      reply := .error ⟨.addressOutOfRange, BitVec.ofNat 16 (max s.index.toNat 4096), s.pc⟩ }) ∧
    (∀ x : Reg, 4096 ≤ s.effAddr x.val → exec (.ldMemVx x) s = .next { s with
      reply := .error ⟨.addressOutOfRange, BitVec.ofNat 16 (max s.index.toNat 4096), s.pc⟩ }) ∧
    (∀ x : Reg, 4096 ≤ s.effAddr x.val → exec (.ldVxMem x) s = .next { s with
      reply := .error ⟨.addressOutOfRange, BitVec.ofNat 16 (max s.index.toNat 4096), s.pc⟩ }) ∧
    (∀ x y n, 0 < n → 4096 ≤ s.effAddr (n - 1) → exec (.drw x y n) s = .next { s with
      reply := .error ⟨.addressOutOfRange, BitVec.ofNat 16 (max s.index.toNat 4096), s.pc⟩ })

/-- A store into the instruction stream is seen by the very next fetch: where LD [I],Vx stores registers
`k` and `k + 1` at `PC` and `PC + 1`, the word fetched there is `V[k]`, `V[k + 1]`, high byte first
(R35, R43; decision D32). -/
def Obligations.StoredOpcodeIsFetchedNext : Prop :=
  ∀ (s : State) (x k k' : Reg), MemoryCanonical s → s.effAddr x.val < 4096 →
    k'.val = k.val + 1 → k' ≤ x → s.pc.toNat = s.effAddr k.val →
    ∃ t, exec (.ldMemVx x) s = .next t ∧ t.pc = s.pc ∧
      t.fetchWord.toNat = (s.readReg k).toNat * 256 + (s.readReg k').toNat

/-! Display (44_display.md). -/

/-- CLS makes every cell 0 and changes nothing else, `VF` among it (R95). -/
def Obligations.ClearScreenZeroesEveryPixel : Prop :=
  ∀ s : State, ∃ t, exec .cls s = .next t ∧
    (∀ row col, row < 32 → col < 64 → Framebuffer.pixel t.fb row col = false) ∧ Keeps [.fb] s t

/-- DRW XORs the clipped sprite onto the framebuffer, sets `VF` to 1 iff some cell went from 1 to 0 and
to 0 otherwise, and changes nothing else (R94, R96, R97; decisions D16 for `I`, D24 for `n = 0`). -/
def Obligations.DrawXorsTheClippedSprite : Prop :=
  ∀ (s : State) (x y : Reg) (n : Nat), HandlerOk (.drw x y n) s →
    ∃ t, exec (.drw x y n) s = .next t ∧
      (∀ row col, row < 32 → col < 64 → Framebuffer.pixel t.fb row col
        = (Framebuffer.pixel s.fb row col ^^ s.spritePixel x y n row col)) ∧
      ((∃ row col, row < 32 ∧ col < 64 ∧ Framebuffer.pixel s.fb row col = true ∧
          Framebuffer.pixel t.fb row col = false) → t.readReg regF = 1) ∧
      ((¬ ∃ row col, row < 32 ∧ col < 64 ∧ Framebuffer.pixel s.fb row col = true ∧
          Framebuffer.pixel t.fb row col = false) → t.readReg regF = 0) ∧
      KeepsRegsBut [regF] s t ∧ Keeps [.fb, .regs] s t

/-- Drawing the same sprite twice at the same place restores the framebuffer; the second DRW reports a
collision iff some unclipped sprite pixel fell on a cell that was 0 before the first (R97(c); the
corner case of R96 that says otherwise is assumption log 16). -/
def Obligations.DrawingTwiceRestoresTheFramebuffer : Prop :=
  ∀ (s t : State) (x y : Reg) (n : Nat), HandlerOk (.drw x y n) s →
    exec (.drw x y n) s = .next t → t.readReg x = s.readReg x → t.readReg y = s.readReg y →
    ∃ u, exec (.drw x y n) t = .next u ∧ u.fb = s.fb ∧
      (u.readReg regF = 1 ↔ ∃ row col, row < 32 ∧ col < 64 ∧
        Framebuffer.pixel s.fb row col = false ∧ s.spritePixel x y n row col = true)

/-- DRW changes no cell outside rows `y0` to `y0 + n - 1` and columns `x0` to `x0 + 7`, and as many cells
as the unclipped sprite has 1 bits, at most `8 n` (R97(d), R97(e)). -/
def Obligations.SpriteStaysInItsBox : Prop :=
  ∀ (s t : State) (x y : Reg) (n : Nat), HandlerOk (.drw x y n) s →
    exec (.drw x y n) s = .next t →
    (∀ row col, row < 32 → col < 64 →
      row < (s.readReg y).toNat % 32 ∨ (s.readReg y).toNat % 32 + n ≤ row ∨
      col < (s.readReg x).toNat % 64 ∨ (s.readReg x).toNat % 64 + 8 ≤ col →
      Framebuffer.pixel t.fb row col = Framebuffer.pixel s.fb row col) ∧
    ((Finset.range 32 ×ˢ Finset.range 64).filter fun p =>
        Framebuffer.pixel t.fb p.1 p.2 ≠ Framebuffer.pixel s.fb p.1 p.2).card
      = ((Finset.range 32 ×ˢ Finset.range 64).filter fun p =>
        s.spritePixel x y n p.1 p.2 = true).card ∧
    ((Finset.range 32 ×ˢ Finset.range 64).filter fun p =>
        Framebuffer.pixel t.fb p.1 p.2 ≠ Framebuffer.pixel s.fb p.1 p.2).card ≤ 8 * n

/-! Reset, load and the host's other events (70_reset_and_hazards.md, 60_exceptions.md). -/

/-- What the machine holds right after reset: R27's list with the decided parameters (R27, R128;
decisions D19, D23). -/
def Obligations.ResetStateHoldsTheSpecValues : Prop :=
  (∀ a, a < 0x050 ∨ 0x0A0 ≤ a → State.reset.byteAt a = 0) ∧
  (State.reset.bytesAt 0x050 10 = [0xF0, 0x90, 0x90, 0x90, 0xF0, 0x20, 0x60, 0x20, 0x20, 0x70]) ∧
  (State.reset.bytesAt 0x09B 5 = [0xF0, 0x80, 0xF0, 0x80, 0x80]) ∧
  (∀ r, State.reset.readReg r = 0) ∧ (∀ k : Fin 16, State.reset.stack[k] = 0) ∧
  State.reset.sp = 0 ∧ State.reset.pc = 0x200 ∧ State.reset.index = 0 ∧
  State.reset.dt = 0 ∧ State.reset.st = 0 ∧
  (∀ row col, Framebuffer.pixel State.reset.fb row col = false) ∧
  (∀ k : Fin 16, State.reset.key[k] = false)

/-- The `Reset` event brings every item of the machine to its reset value, whatever the state: memory
zeroed with the glyph set installed, registers, stack and timers 0, `PC` 0x200, and `I`, `FB`, `KEY` at
their parameters' values (R127, R128; decision D19 for the last three). -/
def Obligations.ResetEventRestoresEveryItem : Prop :=
  ∀ (s : State) (rest : List Event), s.pending = .reset :: rest →
    ∃ t, step s = .next t ∧
      (∀ k : Fin 80, t.byteAt (0x050 + k.val) = s.params.glyphRom[k]) ∧
      (∀ a, a < 0x050 ∨ 0x0A0 ≤ a → t.byteAt a = 0) ∧
      (∀ r, t.readReg r = 0) ∧ (∀ k : Fin 16, t.stack[k] = 0) ∧ t.sp = 0 ∧
      t.dt = 0 ∧ t.st = 0 ∧ t.pc = 0x200 ∧
      t.index = s.params.resetIndex ∧ t.fb = s.params.resetFb ∧ t.key = s.params.resetKeys ∧
      t.params = s.params ∧ t.pending = rest ∧ t.reply = .ok

/-- `LoadProgram` copies an image of at most 3584 bytes to 0x200 and up and changes no other byte and
nothing else; a longer one is refused with ProgramTooLarge and changes nothing (R113, R129; decision
D29). The memory is in its canonical form. -/
def Obligations.LoadProgramCopiesWholeImageOrNothing : Prop :=
  ∀ (s : State) (bytes : List Byte) (rest : List Event),
    s.pending = .loadProgram bytes :: rest →
    (MemoryCanonical s → bytes.length ≤ 3584 → ∃ t, step s = .next t ∧ t.reply = .ok ∧
      t.pending = rest ∧ (∀ (k : Nat) (h : k < bytes.length), t.byteAt (0x200 + k) = bytes[k]) ∧
      KeepsBytesOutside 0x200 bytes.length s t ∧ Keeps [.mem, .pending, .reply] s t) ∧
    (3584 < bytes.length → step s = .next { s with
      pending := rest,
      reply := .error ⟨.programTooLarge, BitVec.ofNat 16 (min bytes.length 0xFFFF), s.pc⟩ })

/-- `SetKey` changes one key bit and nothing else (R123; decision D33 on the index). -/
def Obligations.SetKeyChangesOneKey : Prop :=
  ∀ (s : State) (k : Fin 16) (down : Bool) (rest : List Event),
    s.pending = .setKey k down :: rest →
    ∃ t, step s = .next t ∧ (∀ j : Fin 16, t.key[j] = if j = k then down else s.key[j]) ∧
      t.reply = .ok ∧ t.pending = rest ∧ Keeps [.key, .pending, .reply] s t

/-- The host's `Tick` with TIMER_MODE = External is one countdown of both timers and nothing else (R119,
R120; decision D2). -/
def Obligations.HostTickCountsDown : Prop :=
  ∀ (s : State) (rest : List Event), s.pending = .tick :: rest →
    s.params.timerMode = .external →
    ∃ t, step s = .next t ∧ t.dt.toNat = s.dt.toNat - 1 ∧ t.st.toNat = s.st.toNat - 1 ∧
      t.reply = .ok ∧ t.pending = rest ∧ Keeps [.dt, .st, .pending, .reply] s t

/-- The read-only events change no item of the machine and answer what they name: bit `64*row + col` of
the picture is `FB[row][col]`, and `ReadByte` outside memory raises AddressOutOfRange (R109(c), R124;
decision D29). -/
def Obligations.ReadOnlyEventsAnswerAndChangeNothing : Prop :=
  ∀ (s : State) (rest : List Event),
    (s.pending = .snapshotVideo :: rest → ∃ bits,
      step s = .next { s with pending := rest, reply := .video bits } ∧
      ∀ row col, row < 32 → col < 64 →
        bits.getLsbD (64 * row + col) = Framebuffer.pixel s.fb row col) ∧
    (s.pending = .readDelayTimer :: rest →
      step s = .next { s with pending := rest, reply := .byte s.dt }) ∧
    (s.pending = .readSoundTimer :: rest →
      step s = .next { s with pending := rest, reply := .byte s.st }) ∧
    (∀ k : Fin 16, s.pending = .keyState k :: rest →
      step s = .next { s with pending := rest, reply := .bit s.key[k] }) ∧
    (∀ a, s.pending = .readByte a :: rest → a < 4096 →
      step s = .next { s with pending := rest, reply := .byte (s.byteAt a) }) ∧
    (∀ a, s.pending = .readByte a :: rest → 4096 ≤ a →
      step s = .next { s with
        pending := rest,
        reply := .error ⟨.addressOutOfRange, BitVec.ofNat 16 (min a 0xFFFF), s.pc⟩ })
end

