-- ==== Sys2Proof/Laws/Decode.lean ====
section
/-! SUPPORT. The fields of an encoded word are the fields it was made from (spec/30_encoding.md R45,
R46), for each of the three layouts of the encoder. -/

namespace Sys2Proof

theorem toNat_append (m n : Nat) (a : BitVec m) (b : BitVec n) :
    (a ++ b).toNat = a.toNat * 2 ^ n + b.toNat := by
  rw [BitVec.toNat_append, Nat.shiftLeft_eq, ← Nat.shiftLeft_eq,
    Nat.shiftLeft_add_eq_or_of_lt b.isLt a.toNat]

theorem fieldOp_toNat (w : Word) : (fieldOp w).toNat = w.toNat / 4096 := by
  have := w.isLt
  simp only [fieldOp, BitVec.extractLsb'_toNat, Nat.shiftRight_eq_div_pow]
  omega

theorem nibbleX_toNat (w : Word) : (nibbleX w).toNat = w.toNat / 256 % 16 := by
  simp only [nibbleX, BitVec.extractLsb'_toNat, Nat.shiftRight_eq_div_pow]

theorem nibbleY_toNat (w : Word) : (nibbleY w).toNat = w.toNat / 16 % 16 := by
  simp only [nibbleY, BitVec.extractLsb'_toNat, Nat.shiftRight_eq_div_pow]

theorem fieldN_toNat (w : Word) : (fieldN w).toNat = w.toNat % 16 := by
  simp [fieldN, BitVec.extractLsb'_toNat, Nat.shiftRight_eq_div_pow]

theorem fieldKk_toNat (w : Word) : (fieldKk w).toNat = w.toNat % 256 := by
  simp [fieldKk, BitVec.extractLsb'_toNat, Nat.shiftRight_eq_div_pow]

theorem fieldNnn_toNat (w : Word) : (fieldNnn w).toNat = w.toNat % 4096 := by
  simp [fieldNnn, BitVec.extractLsb'_toNat, Nat.shiftRight_eq_div_pow]

theorem fieldX_val (w : Word) : (fieldX w).val = w.toNat / 256 % 16 := nibbleX_toNat w

theorem fieldY_val (w : Word) : (fieldY w).val = w.toNat / 16 % 16 := nibbleY_toNat w

theorem highByte_toNat (w : Word) : (highByte w).toNat = w.toNat / 256 := by
  have := w.isLt
  simp only [highByte, BitVec.extractLsb'_toNat, Nat.shiftRight_eq_div_pow]
  omega

theorem lowByte_toNat (w : Word) : (lowByte w).toNat = w.toNat % 256 := by
  simp [lowByte, BitVec.extractLsb'_toNat, Nat.shiftRight_eq_div_pow]

theorem joinBytes_toNat (hi lo : Byte) : (joinBytes hi lo).toNat = hi.toNat * 256 + lo.toNat :=
  toNat_append 8 8 hi lo

/-- The two bytes of a word, joined, are the word. -/
@[simp] theorem joinBytes_split (w : Word) : joinBytes (highByte w) (lowByte w) = w := by
  apply BitVec.eq_of_toNat_eq
  rw [joinBytes_toNat, highByte_toNat, lowByte_toNat]
  omega

/-! The word as a number, for each layout. -/

theorem encXY_toNat (op : BitVec 4) (x y : Reg) (n : BitVec 4) :
    (encXY op x y n).toNat = op.toNat * 4096 + x.val * 256 + y.val * 16 + n.toNat := by
  simp only [encXY, nibbles, toNat_append, BitVec.toNat_ofFin]
  omega

theorem encXKK_toNat (op : BitVec 4) (x : Reg) (kk : Byte) :
    (encXKK op x kk).toNat = op.toNat * 4096 + x.val * 256 + kk.toNat := by
  simp only [encXKK, toNat_append, BitVec.toNat_ofFin]
  omega

theorem encNNN_toNat (op : BitVec 4) (nnn : Addr12) :
    (encNNN op nnn).toNat = op.toNat * 4096 + nnn.toNat :=
  toNat_append 4 12 op nnn

/-! The fields of each layout. -/

@[simp] theorem fieldOp_encXY (op : BitVec 4) (x y : Reg) (n : BitVec 4) :
    fieldOp (encXY op x y n) = op := by
  apply BitVec.eq_of_toNat_eq
  rw [fieldOp_toNat, encXY_toNat]
  omega

@[simp] theorem fieldX_encXY (op : BitVec 4) (x y : Reg) (n : BitVec 4) :
    fieldX (encXY op x y n) = x := by
  apply Fin.ext
  rw [fieldX_val, encXY_toNat]
  omega

@[simp] theorem fieldY_encXY (op : BitVec 4) (x y : Reg) (n : BitVec 4) :
    fieldY (encXY op x y n) = y := by
  apply Fin.ext
  rw [fieldY_val, encXY_toNat]
  omega

@[simp] theorem fieldN_encXY (op : BitVec 4) (x y : Reg) (n : BitVec 4) :
    fieldN (encXY op x y n) = n := by
  apply BitVec.eq_of_toNat_eq
  rw [fieldN_toNat, encXY_toNat]
  omega

@[simp] theorem fieldOp_encXKK (op : BitVec 4) (x : Reg) (kk : Byte) :
    fieldOp (encXKK op x kk) = op := by
  apply BitVec.eq_of_toNat_eq
  rw [fieldOp_toNat, encXKK_toNat]
  omega

@[simp] theorem fieldX_encXKK (op : BitVec 4) (x : Reg) (kk : Byte) :
    fieldX (encXKK op x kk) = x := by
  apply Fin.ext
  rw [fieldX_val, encXKK_toNat]
  omega

@[simp] theorem fieldKk_encXKK (op : BitVec 4) (x : Reg) (kk : Byte) :
    fieldKk (encXKK op x kk) = kk := by
  apply BitVec.eq_of_toNat_eq
  rw [fieldKk_toNat, encXKK_toNat]
  omega

@[simp] theorem fieldOp_encNNN (op : BitVec 4) (nnn : Addr12) : fieldOp (encNNN op nnn) = op := by
  apply BitVec.eq_of_toNat_eq
  rw [fieldOp_toNat, encNNN_toNat]
  omega

@[simp] theorem fieldNnn_encNNN (op : BitVec 4) (nnn : Addr12) :
    fieldNnn (encNNN op nnn) = nnn := by
  apply BitVec.eq_of_toNat_eq
  rw [fieldNnn_toNat, encNNN_toNat]
  omega

/-! The nibbles of a word, and masks. -/

theorem nibbles_toNat (a b c d : BitVec 4) :
    (nibbles a b c d).toNat = a.toNat * 4096 + b.toNat * 256 + c.toNat * 16 + d.toNat := by
  simp only [nibbles, toNat_append]
  omega

@[simp] theorem fieldOp_nibbles (a b c d : BitVec 4) : fieldOp (nibbles a b c d) = a := by
  have := a.isLt
  apply BitVec.eq_of_toNat_eq
  rw [fieldOp_toNat, nibbles_toNat]
  omega

@[simp] theorem nibbleX_nibbles (a b c d : BitVec 4) : nibbleX (nibbles a b c d) = b := by
  have := a.isLt
  apply BitVec.eq_of_toNat_eq
  rw [nibbleX_toNat, nibbles_toNat]
  omega

@[simp] theorem nibbleY_nibbles (a b c d : BitVec 4) : nibbleY (nibbles a b c d) = c := by
  have := a.isLt
  apply BitVec.eq_of_toNat_eq
  rw [nibbleY_toNat, nibbles_toNat]
  omega

@[simp] theorem fieldN_nibbles (a b c d : BitVec 4) : fieldN (nibbles a b c d) = d := by
  have := a.isLt
  apply BitVec.eq_of_toNat_eq
  rw [fieldN_toNat, nibbles_toNat]
  omega

/-- A word is its four nibbles. -/
theorem nibbles_fields (w : Word) :
    nibbles (fieldOp w) (nibbleX w) (nibbleY w) (fieldN w) = w := by
  apply BitVec.eq_of_toNat_eq
  rw [nibbles_toNat, fieldOp_toNat, nibbleX_toNat, nibbleY_toNat, fieldN_toNat]
  omega

theorem nibbles_inj {a b c d a' b' c' d' : BitVec 4} :
    nibbles a b c d = nibbles a' b' c' d' ↔ a = a' ∧ b = b' ∧ c = c' ∧ d = d' := by
  constructor
  · intro h
    have := congrArg BitVec.toNat h
    rw [nibbles_toNat, nibbles_toNat] at this
    refine ⟨?_, ?_, ?_, ?_⟩ <;> apply BitVec.eq_of_toNat_eq <;> omega
  · rintro ⟨rfl, rfl, rfl, rfl⟩; rfl

/-- Masking acts on each nibble. -/
theorem nibbles_and (a b c d a' b' c' d' : BitVec 4) :
    nibbles a b c d &&& nibbles a' b' c' d' = nibbles (a &&& a') (b &&& b') (c &&& c') (d &&& d') := by
  have h2 : (a ++ b) &&& (a' ++ b') = (a &&& a') ++ (b &&& b') := BitVec.and_append
  have h3 : (a ++ b ++ c) &&& (a' ++ b' ++ c') = (a &&& a') ++ (b &&& b') ++ (c &&& c') := by
    rw [← h2]; exact BitVec.and_append
  have h4 : (a ++ b ++ c ++ d) &&& (a' ++ b' ++ c' ++ d') =
      (a &&& a') ++ (b &&& b') ++ (c &&& c') ++ (d &&& d') := by
    rw [← h3]; exact BitVec.and_append
  exact h4

@[simp] theorem and_nibble_ones (a : BitVec 4) : a &&& 0xF#4 = a := BitVec.and_allOnes

/-- A word under a mask given as nibbles (spec/30_encoding.md R48). -/
theorem and_nibbles (w : Word) (a b c d : BitVec 4) :
    w &&& nibbles a b c d =
      nibbles (fieldOp w &&& a) (nibbleX w &&& b) (nibbleY w &&& c) (fieldN w &&& d) := by
  rw [← nibbles_and, nibbles_fields]

/-! What the decoder can answer. -/

/-- The `Unknown` tag carries the word itself (R49). -/
theorem decodeWord_unknown {w u : Word} (h : decodeWord w = .unknown u) : u = w := by
  unfold decodeWord decodeGroup8 decodeGroupF at h
  split at h <;> (try split at h) <;> (try split_ifs at h) <;> cases h <;> rfl

/-- A word decodes to an instruction or to `Unknown` of itself (R49). -/
theorem decodeWord_cases (w : Word) :
    (∃ i, decodeWord w = .instr i) ∨ decodeWord w = .unknown w := by
  cases h : decodeWord w with
  | instr i => exact .inl ⟨i, rfl⟩
  | unknown u => rw [decodeWord_unknown h]; exact .inr rfl

end Sys2Proof
end

