-- ==== Sys2Proof/Laws/Memory.lean ====
section
/-! SUPPORT. The laws of the memory list: a read after a write, and the canonical form, which every
operation keeps. -/

namespace Sys2Proof.Machine.Memory

open Config

variable (rom : Vector Byte 80)

theorem read_cons (b : Nat) (w : Byte) (m : Memory) (a : Nat) :
    read rom ((b, w) :: m) a = if a = b then w else read rom m a := rfl

/-- Putting a cell in front changes the reading of that address alone, if the rest reads there as
unlisted. -/
theorem read_consCell (a : Nat) (v : Byte) (m : Memory) (c : Nat)
    (h : read rom m a = unlisted rom a) :
    read rom (consCell rom a v m) c = if c = a then v else read rom m c := by
  unfold consCell
  by_cases hv : v = unlisted rom a
  · rw [if_pos hv]
    by_cases hc : c = a
    · rw [if_pos hc, hc, h, hv]
    · rw [if_neg hc]
  · rw [if_neg hv, read_cons]

/-- A canonical list reads as unlisted below its first address. -/
theorem read_below {lo a : Nat} {m : Memory} (h : wfFrom rom lo m = true) (ha : a < lo) :
    read rom m a = unlisted rom a := by
  induction m generalizing lo with
  | nil => rfl
  | cons c m ih =>
    obtain ⟨b, w⟩ := c
    simp only [wfFrom, Bool.and_eq_true, decide_eq_true_eq] at h
    rw [read_cons, if_neg (by omega)]
    exact ih h.2 (by omega)

/-- The canonical form weakens in its lower bound. -/
theorem wfFrom_mono {lo lo' : Nat} {m : Memory} (h : wfFrom rom lo m = true) (hl : lo' ≤ lo) :
    wfFrom rom lo' m = true := by
  cases m with
  | nil => rfl
  | cons c m =>
    obtain ⟨b, w⟩ := c
    simp only [wfFrom, Bool.and_eq_true, decide_eq_true_eq] at h ⊢
    exact ⟨⟨⟨by omega, h.1.1.2⟩, h.1.2⟩, h.2⟩

theorem wfFrom_consCell {lo a : Nat} (v : Byte) {m : Memory} (hlo : lo ≤ a) (ha : a < memSize)
    (h : wfFrom rom (a + 1) m = true) : wfFrom rom lo (consCell rom a v m) = true := by
  unfold consCell
  by_cases hv : v = unlisted rom a
  · rw [if_pos hv]; exact wfFrom_mono rom h (by omega)
  · rw [if_neg hv]
    simp only [wfFrom, Bool.and_eq_true, decide_eq_true_eq, bne_iff_ne]
    exact ⟨⟨⟨hlo, ha⟩, hv⟩, h⟩

/-- A read after a write, in a canonical memory. -/
theorem read_write_from {lo : Nat} {m : Memory} (h : wfFrom rom lo m = true) (a : Nat) (v : Byte)
    (c : Nat) : read rom (write rom m a v) c = if c = a then v else read rom m c := by
  induction m generalizing lo with
  | nil => exact read_consCell rom a v [] c rfl
  | cons d m ih =>
    obtain ⟨b, w⟩ := d
    have hw := h
    simp only [wfFrom, Bool.and_eq_true, decide_eq_true_eq] at h
    unfold write
    by_cases h1 : a < b
    · rw [if_pos h1]
      refine read_consCell rom a v _ c ?_
      rw [read_cons, if_neg (by omega)]
      exact read_below rom h.2 (by omega)
    · rw [if_neg h1]
      by_cases h2 : a = b
      · subst h2
        rw [if_pos rfl, read_consCell rom a v m c (read_below rom h.2 (by omega)), read_cons]
        split_ifs <;> rfl
      · rw [if_neg h2, read_cons, read_cons, ih h.2]
        split_ifs with h3 h4 h5
        · omega
        · rfl
        · rfl
        · rfl

/-- A read after a write: the value at the written address, the old byte elsewhere. -/
theorem read_write {m : Memory} (h : wf rom m = true) (a : Nat) (v : Byte) (c : Nat) :
    read rom (write rom m a v) c = if c = a then v else read rom m c :=
  read_write_from rom h a v c

/-- Writing leaves every other address alone, whatever the list. -/
theorem read_write_of_ne (m : Memory) {a c : Nat} (v : Byte) (h : c ≠ a) :
    read rom (write rom m a v) c = read rom m c := by
  have cons_ne : ∀ m : Memory, read rom (consCell rom a v m) c = read rom m c := by
    intro m
    unfold consCell
    by_cases hv : v = unlisted rom a
    · rw [if_pos hv]
    · rw [if_neg hv, read_cons, if_neg h]
  induction m with
  | nil => exact cons_ne []
  | cons d m ih =>
    obtain ⟨b, w⟩ := d
    unfold write
    split_ifs with h1 h2
    · exact cons_ne _
    · rw [cons_ne, read_cons, if_neg (by omega)]
    · rw [read_cons, read_cons, ih]

theorem wfFrom_write {lo : Nat} {m : Memory} (h : wfFrom rom lo m = true) {a : Nat} (v : Byte)
    (hlo : lo ≤ a) (ha : a < memSize) : wfFrom rom lo (write rom m a v) = true := by
  induction m generalizing lo with
  | nil => exact wfFrom_consCell rom v hlo ha rfl
  | cons d m ih =>
    obtain ⟨b, w⟩ := d
    have hw := h
    simp only [wfFrom, Bool.and_eq_true, decide_eq_true_eq] at h
    unfold write
    split_ifs with h1 h2
    · exact wfFrom_consCell rom v hlo ha (by
        simp only [wfFrom, Bool.and_eq_true, decide_eq_true_eq]
        exact ⟨⟨⟨by omega, h.1.1.2⟩, h.1.2⟩, h.2⟩)
    · subst h2
      exact wfFrom_consCell rom v hlo ha h.2
    · simp only [wfFrom, Bool.and_eq_true, decide_eq_true_eq]
      exact ⟨h.1, ih h.2 (by omega)⟩

/-- A write inside memory keeps the canonical form. -/
theorem wf_write {m : Memory} (h : wf rom m = true) {a : Nat} (v : Byte) (ha : a < memSize) :
    wf rom (write rom m a v) = true :=
  wfFrom_write rom h v (Nat.zero_le a) ha

/-- Writing bytes inside memory keeps the canonical form. -/
theorem wf_writeAll {m : Memory} (h : wf rom m = true) (vs : List Byte) {a : Nat}
    (ha : vs = [] ∨ a + vs.length ≤ memSize) : wf rom (writeAll rom m a vs) = true := by
  induction vs generalizing m a with
  | nil => exact h
  | cons v vs ih =>
    simp only [List.length_cons, reduceCtorEq, false_or] at ha
    exact ih (wf_write rom h v (by omega)) (Or.inr (by omega))

/-- Writing bytes leaves every address outside them alone, whatever the list. -/
theorem read_writeAll_outside (m : Memory) (vs : List Byte) {a c : Nat}
    (h : c < a ∨ a + vs.length ≤ c) : read rom (writeAll rom m a vs) c = read rom m c := by
  induction vs generalizing m a with
  | nil => rfl
  | cons v vs ih =>
    simp only [List.length_cons] at h
    rw [writeAll, ih _ (by omega), read_write_of_ne rom m v (by omega)]

/-- The bytes read after they were written, in a canonical memory. -/
theorem read_writeAll_inside {m : Memory} (h : wf rom m = true) (vs : List Byte) {a k : Nat}
    (hk : k < vs.length) (ha : a + vs.length ≤ memSize) :
    read rom (writeAll rom m a vs) (a + k) = vs[k] := by
  induction vs generalizing m a k with
  | nil => exact absurd hk (Nat.not_lt_zero k)
  | cons v vs ih =>
    simp only [List.length_cons] at hk ha
    cases k with
    | zero =>
      rw [writeAll, read_writeAll_outside rom _ vs (by omega), read_write rom h, if_pos (Nat.add_zero a)]
      rfl
    | succ k =>
      have := ih (wf_write rom h v (by omega : a < memSize)) (k := k) (a := a + 1) (by omega) (by omega)
      rw [writeAll, show a + (k + 1) = a + 1 + k by omega, this]
      rfl

@[simp] theorem readAll_length (m : Memory) (a n : Nat) : (readAll rom m a n).length = n := by
  induction n generalizing a with
  | zero => rfl
  | succ n ih => simp [readAll, ih]

/-- Byte `k` of a block is the byte at `a + k`. -/
theorem readAll_getElem (m : Memory) (a n k : Nat) (h : k < (readAll rom m a n).length) :
    (readAll rom m a n)[k] = read rom m (a + k) := by
  induction n generalizing a k with
  | zero => exact absurd h (by simp [readAll])
  | succ n ih =>
    cases k with
    | zero => rfl
    | succ k =>
      simp only [readAll, List.getElem_cons_succ]
      rw [ih, show a + 1 + k = a + (k + 1) by omega]

/-- The bytes of a block depend only on the readings. -/
theorem readAll_congr {m m' : Memory} (h : ∀ a, read rom m a = read rom m' a) (a n : Nat) :
    readAll rom m a n = readAll rom m' a n := by
  induction n generalizing a with
  | zero => rfl
  | succ n ih => rw [readAll, readAll, h, ih]

end Sys2Proof.Machine.Memory
end

