-- ==== Sys2Proof/Laws/State.lean ====
section
/-! SUPPORT. What each update of Machine/Ops.lean leaves in each field: one lemma per field per
update, true by rfl. -/

namespace Sys2Proof.Machine.State

variable (s : State)

@[simp] theorem setMem_mem (a : Memory) : (s.setMem a).mem = a := rfl
@[simp] theorem setMem_v (a : Memory) : (s.setMem a).v = s.v := rfl
@[simp] theorem setMem_index (a : Memory) : (s.setMem a).index = s.index := rfl
@[simp] theorem setMem_pc (a : Memory) : (s.setMem a).pc = s.pc := rfl
@[simp] theorem setMem_stack (a : Memory) : (s.setMem a).stack = s.stack := rfl
@[simp] theorem setMem_sp (a : Memory) : (s.setMem a).sp = s.sp := rfl
@[simp] theorem setMem_dt (a : Memory) : (s.setMem a).dt = s.dt := rfl
@[simp] theorem setMem_st (a : Memory) : (s.setMem a).st = s.st := rfl
@[simp] theorem setMem_fb (a : Memory) : (s.setMem a).fb = s.fb := rfl
@[simp] theorem setMem_key (a : Memory) : (s.setMem a).key = s.key := rfl
@[simp] theorem setMem_params (a : Memory) : (s.setMem a).params = s.params := rfl
@[simp] theorem setMem_rnd (a : Memory) : (s.setMem a).rnd = s.rnd := rfl
@[simp] theorem setMem_draws (a : Memory) : (s.setMem a).draws = s.draws := rfl
@[simp] theorem setMem_pending (a : Memory) : (s.setMem a).pending = s.pending := rfl
@[simp] theorem setMem_reply (a : Memory) : (s.setMem a).reply = s.reply := rfl

@[simp] theorem setV_mem (a : Vector Byte 16) : (s.setV a).mem = s.mem := rfl
@[simp] theorem setV_v (a : Vector Byte 16) : (s.setV a).v = a := rfl
@[simp] theorem setV_index (a : Vector Byte 16) : (s.setV a).index = s.index := rfl
@[simp] theorem setV_pc (a : Vector Byte 16) : (s.setV a).pc = s.pc := rfl
@[simp] theorem setV_stack (a : Vector Byte 16) : (s.setV a).stack = s.stack := rfl
@[simp] theorem setV_sp (a : Vector Byte 16) : (s.setV a).sp = s.sp := rfl
@[simp] theorem setV_dt (a : Vector Byte 16) : (s.setV a).dt = s.dt := rfl
@[simp] theorem setV_st (a : Vector Byte 16) : (s.setV a).st = s.st := rfl
@[simp] theorem setV_fb (a : Vector Byte 16) : (s.setV a).fb = s.fb := rfl
@[simp] theorem setV_key (a : Vector Byte 16) : (s.setV a).key = s.key := rfl
@[simp] theorem setV_params (a : Vector Byte 16) : (s.setV a).params = s.params := rfl
@[simp] theorem setV_rnd (a : Vector Byte 16) : (s.setV a).rnd = s.rnd := rfl
@[simp] theorem setV_draws (a : Vector Byte 16) : (s.setV a).draws = s.draws := rfl
@[simp] theorem setV_pending (a : Vector Byte 16) : (s.setV a).pending = s.pending := rfl
@[simp] theorem setV_reply (a : Vector Byte 16) : (s.setV a).reply = s.reply := rfl

@[simp] theorem setIndex_mem (a : Word) : (s.setIndex a).mem = s.mem := rfl
@[simp] theorem setIndex_v (a : Word) : (s.setIndex a).v = s.v := rfl
@[simp] theorem setIndex_index (a : Word) : (s.setIndex a).index = a := rfl
@[simp] theorem setIndex_pc (a : Word) : (s.setIndex a).pc = s.pc := rfl
@[simp] theorem setIndex_stack (a : Word) : (s.setIndex a).stack = s.stack := rfl
@[simp] theorem setIndex_sp (a : Word) : (s.setIndex a).sp = s.sp := rfl
@[simp] theorem setIndex_dt (a : Word) : (s.setIndex a).dt = s.dt := rfl
@[simp] theorem setIndex_st (a : Word) : (s.setIndex a).st = s.st := rfl
@[simp] theorem setIndex_fb (a : Word) : (s.setIndex a).fb = s.fb := rfl
@[simp] theorem setIndex_key (a : Word) : (s.setIndex a).key = s.key := rfl
@[simp] theorem setIndex_params (a : Word) : (s.setIndex a).params = s.params := rfl
@[simp] theorem setIndex_rnd (a : Word) : (s.setIndex a).rnd = s.rnd := rfl
@[simp] theorem setIndex_draws (a : Word) : (s.setIndex a).draws = s.draws := rfl
@[simp] theorem setIndex_pending (a : Word) : (s.setIndex a).pending = s.pending := rfl
@[simp] theorem setIndex_reply (a : Word) : (s.setIndex a).reply = s.reply := rfl

@[simp] theorem setPc_mem (a : Word) : (s.setPc a).mem = s.mem := rfl
@[simp] theorem setPc_v (a : Word) : (s.setPc a).v = s.v := rfl
@[simp] theorem setPc_index (a : Word) : (s.setPc a).index = s.index := rfl
@[simp] theorem setPc_pc (a : Word) : (s.setPc a).pc = a := rfl
@[simp] theorem setPc_stack (a : Word) : (s.setPc a).stack = s.stack := rfl
@[simp] theorem setPc_sp (a : Word) : (s.setPc a).sp = s.sp := rfl
@[simp] theorem setPc_dt (a : Word) : (s.setPc a).dt = s.dt := rfl
@[simp] theorem setPc_st (a : Word) : (s.setPc a).st = s.st := rfl
@[simp] theorem setPc_fb (a : Word) : (s.setPc a).fb = s.fb := rfl
@[simp] theorem setPc_key (a : Word) : (s.setPc a).key = s.key := rfl
@[simp] theorem setPc_params (a : Word) : (s.setPc a).params = s.params := rfl
@[simp] theorem setPc_rnd (a : Word) : (s.setPc a).rnd = s.rnd := rfl
@[simp] theorem setPc_draws (a : Word) : (s.setPc a).draws = s.draws := rfl
@[simp] theorem setPc_pending (a : Word) : (s.setPc a).pending = s.pending := rfl
@[simp] theorem setPc_reply (a : Word) : (s.setPc a).reply = s.reply := rfl

@[simp] theorem setStack_mem (a : Vector Word 16) : (s.setStack a).mem = s.mem := rfl
@[simp] theorem setStack_v (a : Vector Word 16) : (s.setStack a).v = s.v := rfl
@[simp] theorem setStack_index (a : Vector Word 16) : (s.setStack a).index = s.index := rfl
@[simp] theorem setStack_pc (a : Vector Word 16) : (s.setStack a).pc = s.pc := rfl
@[simp] theorem setStack_stack (a : Vector Word 16) : (s.setStack a).stack = a := rfl
@[simp] theorem setStack_sp (a : Vector Word 16) : (s.setStack a).sp = s.sp := rfl
@[simp] theorem setStack_dt (a : Vector Word 16) : (s.setStack a).dt = s.dt := rfl
@[simp] theorem setStack_st (a : Vector Word 16) : (s.setStack a).st = s.st := rfl
@[simp] theorem setStack_fb (a : Vector Word 16) : (s.setStack a).fb = s.fb := rfl
@[simp] theorem setStack_key (a : Vector Word 16) : (s.setStack a).key = s.key := rfl
@[simp] theorem setStack_params (a : Vector Word 16) : (s.setStack a).params = s.params := rfl
@[simp] theorem setStack_rnd (a : Vector Word 16) : (s.setStack a).rnd = s.rnd := rfl
@[simp] theorem setStack_draws (a : Vector Word 16) : (s.setStack a).draws = s.draws := rfl
@[simp] theorem setStack_pending (a : Vector Word 16) : (s.setStack a).pending = s.pending := rfl
@[simp] theorem setStack_reply (a : Vector Word 16) : (s.setStack a).reply = s.reply := rfl

@[simp] theorem setSp_mem (a : Fin 17) : (s.setSp a).mem = s.mem := rfl
@[simp] theorem setSp_v (a : Fin 17) : (s.setSp a).v = s.v := rfl
@[simp] theorem setSp_index (a : Fin 17) : (s.setSp a).index = s.index := rfl
@[simp] theorem setSp_pc (a : Fin 17) : (s.setSp a).pc = s.pc := rfl
@[simp] theorem setSp_stack (a : Fin 17) : (s.setSp a).stack = s.stack := rfl
@[simp] theorem setSp_sp (a : Fin 17) : (s.setSp a).sp = a := rfl
@[simp] theorem setSp_dt (a : Fin 17) : (s.setSp a).dt = s.dt := rfl
@[simp] theorem setSp_st (a : Fin 17) : (s.setSp a).st = s.st := rfl
@[simp] theorem setSp_fb (a : Fin 17) : (s.setSp a).fb = s.fb := rfl
@[simp] theorem setSp_key (a : Fin 17) : (s.setSp a).key = s.key := rfl
@[simp] theorem setSp_params (a : Fin 17) : (s.setSp a).params = s.params := rfl
@[simp] theorem setSp_rnd (a : Fin 17) : (s.setSp a).rnd = s.rnd := rfl
@[simp] theorem setSp_draws (a : Fin 17) : (s.setSp a).draws = s.draws := rfl
@[simp] theorem setSp_pending (a : Fin 17) : (s.setSp a).pending = s.pending := rfl
@[simp] theorem setSp_reply (a : Fin 17) : (s.setSp a).reply = s.reply := rfl

@[simp] theorem setDt_mem (a : Byte) : (s.setDt a).mem = s.mem := rfl
@[simp] theorem setDt_v (a : Byte) : (s.setDt a).v = s.v := rfl
@[simp] theorem setDt_index (a : Byte) : (s.setDt a).index = s.index := rfl
@[simp] theorem setDt_pc (a : Byte) : (s.setDt a).pc = s.pc := rfl
@[simp] theorem setDt_stack (a : Byte) : (s.setDt a).stack = s.stack := rfl
@[simp] theorem setDt_sp (a : Byte) : (s.setDt a).sp = s.sp := rfl
@[simp] theorem setDt_dt (a : Byte) : (s.setDt a).dt = a := rfl
@[simp] theorem setDt_st (a : Byte) : (s.setDt a).st = s.st := rfl
@[simp] theorem setDt_fb (a : Byte) : (s.setDt a).fb = s.fb := rfl
@[simp] theorem setDt_key (a : Byte) : (s.setDt a).key = s.key := rfl
@[simp] theorem setDt_params (a : Byte) : (s.setDt a).params = s.params := rfl
@[simp] theorem setDt_rnd (a : Byte) : (s.setDt a).rnd = s.rnd := rfl
@[simp] theorem setDt_draws (a : Byte) : (s.setDt a).draws = s.draws := rfl
@[simp] theorem setDt_pending (a : Byte) : (s.setDt a).pending = s.pending := rfl
@[simp] theorem setDt_reply (a : Byte) : (s.setDt a).reply = s.reply := rfl

@[simp] theorem setSt_mem (a : Byte) : (s.setSt a).mem = s.mem := rfl
@[simp] theorem setSt_v (a : Byte) : (s.setSt a).v = s.v := rfl
@[simp] theorem setSt_index (a : Byte) : (s.setSt a).index = s.index := rfl
@[simp] theorem setSt_pc (a : Byte) : (s.setSt a).pc = s.pc := rfl
@[simp] theorem setSt_stack (a : Byte) : (s.setSt a).stack = s.stack := rfl
@[simp] theorem setSt_sp (a : Byte) : (s.setSt a).sp = s.sp := rfl
@[simp] theorem setSt_dt (a : Byte) : (s.setSt a).dt = s.dt := rfl
@[simp] theorem setSt_st (a : Byte) : (s.setSt a).st = a := rfl
@[simp] theorem setSt_fb (a : Byte) : (s.setSt a).fb = s.fb := rfl
@[simp] theorem setSt_key (a : Byte) : (s.setSt a).key = s.key := rfl
@[simp] theorem setSt_params (a : Byte) : (s.setSt a).params = s.params := rfl
@[simp] theorem setSt_rnd (a : Byte) : (s.setSt a).rnd = s.rnd := rfl
@[simp] theorem setSt_draws (a : Byte) : (s.setSt a).draws = s.draws := rfl
@[simp] theorem setSt_pending (a : Byte) : (s.setSt a).pending = s.pending := rfl
@[simp] theorem setSt_reply (a : Byte) : (s.setSt a).reply = s.reply := rfl

@[simp] theorem setFb_mem (a : Framebuffer) : (s.setFb a).mem = s.mem := rfl
@[simp] theorem setFb_v (a : Framebuffer) : (s.setFb a).v = s.v := rfl
@[simp] theorem setFb_index (a : Framebuffer) : (s.setFb a).index = s.index := rfl
@[simp] theorem setFb_pc (a : Framebuffer) : (s.setFb a).pc = s.pc := rfl
@[simp] theorem setFb_stack (a : Framebuffer) : (s.setFb a).stack = s.stack := rfl
@[simp] theorem setFb_sp (a : Framebuffer) : (s.setFb a).sp = s.sp := rfl
@[simp] theorem setFb_dt (a : Framebuffer) : (s.setFb a).dt = s.dt := rfl
@[simp] theorem setFb_st (a : Framebuffer) : (s.setFb a).st = s.st := rfl
@[simp] theorem setFb_fb (a : Framebuffer) : (s.setFb a).fb = a := rfl
@[simp] theorem setFb_key (a : Framebuffer) : (s.setFb a).key = s.key := rfl
@[simp] theorem setFb_params (a : Framebuffer) : (s.setFb a).params = s.params := rfl
@[simp] theorem setFb_rnd (a : Framebuffer) : (s.setFb a).rnd = s.rnd := rfl
@[simp] theorem setFb_draws (a : Framebuffer) : (s.setFb a).draws = s.draws := rfl
@[simp] theorem setFb_pending (a : Framebuffer) : (s.setFb a).pending = s.pending := rfl
@[simp] theorem setFb_reply (a : Framebuffer) : (s.setFb a).reply = s.reply := rfl

@[simp] theorem setKey_mem (a : Vector Bool 16) : (s.setKey a).mem = s.mem := rfl
@[simp] theorem setKey_v (a : Vector Bool 16) : (s.setKey a).v = s.v := rfl
@[simp] theorem setKey_index (a : Vector Bool 16) : (s.setKey a).index = s.index := rfl
@[simp] theorem setKey_pc (a : Vector Bool 16) : (s.setKey a).pc = s.pc := rfl
@[simp] theorem setKey_stack (a : Vector Bool 16) : (s.setKey a).stack = s.stack := rfl
@[simp] theorem setKey_sp (a : Vector Bool 16) : (s.setKey a).sp = s.sp := rfl
@[simp] theorem setKey_dt (a : Vector Bool 16) : (s.setKey a).dt = s.dt := rfl
@[simp] theorem setKey_st (a : Vector Bool 16) : (s.setKey a).st = s.st := rfl
@[simp] theorem setKey_fb (a : Vector Bool 16) : (s.setKey a).fb = s.fb := rfl
@[simp] theorem setKey_key (a : Vector Bool 16) : (s.setKey a).key = a := rfl
@[simp] theorem setKey_params (a : Vector Bool 16) : (s.setKey a).params = s.params := rfl
@[simp] theorem setKey_rnd (a : Vector Bool 16) : (s.setKey a).rnd = s.rnd := rfl
@[simp] theorem setKey_draws (a : Vector Bool 16) : (s.setKey a).draws = s.draws := rfl
@[simp] theorem setKey_pending (a : Vector Bool 16) : (s.setKey a).pending = s.pending := rfl
@[simp] theorem setKey_reply (a : Vector Bool 16) : (s.setKey a).reply = s.reply := rfl

@[simp] theorem setRnd_mem (a : Byte) : (s.setRnd a).mem = s.mem := rfl
@[simp] theorem setRnd_v (a : Byte) : (s.setRnd a).v = s.v := rfl
@[simp] theorem setRnd_index (a : Byte) : (s.setRnd a).index = s.index := rfl
@[simp] theorem setRnd_pc (a : Byte) : (s.setRnd a).pc = s.pc := rfl
@[simp] theorem setRnd_stack (a : Byte) : (s.setRnd a).stack = s.stack := rfl
@[simp] theorem setRnd_sp (a : Byte) : (s.setRnd a).sp = s.sp := rfl
@[simp] theorem setRnd_dt (a : Byte) : (s.setRnd a).dt = s.dt := rfl
@[simp] theorem setRnd_st (a : Byte) : (s.setRnd a).st = s.st := rfl
@[simp] theorem setRnd_fb (a : Byte) : (s.setRnd a).fb = s.fb := rfl
@[simp] theorem setRnd_key (a : Byte) : (s.setRnd a).key = s.key := rfl
@[simp] theorem setRnd_params (a : Byte) : (s.setRnd a).params = s.params := rfl
@[simp] theorem setRnd_rnd (a : Byte) : (s.setRnd a).rnd = a := rfl
@[simp] theorem setRnd_draws (a : Byte) : (s.setRnd a).draws = s.draws := rfl
@[simp] theorem setRnd_pending (a : Byte) : (s.setRnd a).pending = s.pending := rfl
@[simp] theorem setRnd_reply (a : Byte) : (s.setRnd a).reply = s.reply := rfl

@[simp] theorem setDraws_mem (a : Nat) : (s.setDraws a).mem = s.mem := rfl
@[simp] theorem setDraws_v (a : Nat) : (s.setDraws a).v = s.v := rfl
@[simp] theorem setDraws_index (a : Nat) : (s.setDraws a).index = s.index := rfl
@[simp] theorem setDraws_pc (a : Nat) : (s.setDraws a).pc = s.pc := rfl
@[simp] theorem setDraws_stack (a : Nat) : (s.setDraws a).stack = s.stack := rfl
@[simp] theorem setDraws_sp (a : Nat) : (s.setDraws a).sp = s.sp := rfl
@[simp] theorem setDraws_dt (a : Nat) : (s.setDraws a).dt = s.dt := rfl
@[simp] theorem setDraws_st (a : Nat) : (s.setDraws a).st = s.st := rfl
@[simp] theorem setDraws_fb (a : Nat) : (s.setDraws a).fb = s.fb := rfl
@[simp] theorem setDraws_key (a : Nat) : (s.setDraws a).key = s.key := rfl
@[simp] theorem setDraws_params (a : Nat) : (s.setDraws a).params = s.params := rfl
@[simp] theorem setDraws_rnd (a : Nat) : (s.setDraws a).rnd = s.rnd := rfl
@[simp] theorem setDraws_draws (a : Nat) : (s.setDraws a).draws = a := rfl
@[simp] theorem setDraws_pending (a : Nat) : (s.setDraws a).pending = s.pending := rfl
@[simp] theorem setDraws_reply (a : Nat) : (s.setDraws a).reply = s.reply := rfl

@[simp] theorem setPending_mem (a : List Event) : (s.setPending a).mem = s.mem := rfl
@[simp] theorem setPending_v (a : List Event) : (s.setPending a).v = s.v := rfl
@[simp] theorem setPending_index (a : List Event) : (s.setPending a).index = s.index := rfl
@[simp] theorem setPending_pc (a : List Event) : (s.setPending a).pc = s.pc := rfl
@[simp] theorem setPending_stack (a : List Event) : (s.setPending a).stack = s.stack := rfl
@[simp] theorem setPending_sp (a : List Event) : (s.setPending a).sp = s.sp := rfl
@[simp] theorem setPending_dt (a : List Event) : (s.setPending a).dt = s.dt := rfl
@[simp] theorem setPending_st (a : List Event) : (s.setPending a).st = s.st := rfl
@[simp] theorem setPending_fb (a : List Event) : (s.setPending a).fb = s.fb := rfl
@[simp] theorem setPending_key (a : List Event) : (s.setPending a).key = s.key := rfl
@[simp] theorem setPending_params (a : List Event) : (s.setPending a).params = s.params := rfl
@[simp] theorem setPending_rnd (a : List Event) : (s.setPending a).rnd = s.rnd := rfl
@[simp] theorem setPending_draws (a : List Event) : (s.setPending a).draws = s.draws := rfl
@[simp] theorem setPending_pending (a : List Event) : (s.setPending a).pending = a := rfl
@[simp] theorem setPending_reply (a : List Event) : (s.setPending a).reply = s.reply := rfl

@[simp] theorem setReply_mem (a : Reply) : (s.setReply a).mem = s.mem := rfl
@[simp] theorem setReply_v (a : Reply) : (s.setReply a).v = s.v := rfl
@[simp] theorem setReply_index (a : Reply) : (s.setReply a).index = s.index := rfl
@[simp] theorem setReply_pc (a : Reply) : (s.setReply a).pc = s.pc := rfl
@[simp] theorem setReply_stack (a : Reply) : (s.setReply a).stack = s.stack := rfl
@[simp] theorem setReply_sp (a : Reply) : (s.setReply a).sp = s.sp := rfl
@[simp] theorem setReply_dt (a : Reply) : (s.setReply a).dt = s.dt := rfl
@[simp] theorem setReply_st (a : Reply) : (s.setReply a).st = s.st := rfl
@[simp] theorem setReply_fb (a : Reply) : (s.setReply a).fb = s.fb := rfl
@[simp] theorem setReply_key (a : Reply) : (s.setReply a).key = s.key := rfl
@[simp] theorem setReply_params (a : Reply) : (s.setReply a).params = s.params := rfl
@[simp] theorem setReply_rnd (a : Reply) : (s.setReply a).rnd = s.rnd := rfl
@[simp] theorem setReply_draws (a : Reply) : (s.setReply a).draws = s.draws := rfl
@[simp] theorem setReply_pending (a : Reply) : (s.setReply a).pending = s.pending := rfl
@[simp] theorem setReply_reply (a : Reply) : (s.setReply a).reply = a := rfl

end Sys2Proof.Machine.State
end

