-- ==== Sys2Proof/Laws/Ops.lean ====
section
/-! SUPPORT. What the shared operations do: for each, the fields it leaves (true by rfl), and one lemma
that says once all its outcomes. Provers cite these instead of unfolding. -/

namespace Sys2Proof.Machine

open Config

variable (s : State)

/-! Reading a register or a byte after an update of another field. -/

@[simp] theorem State.readReg_setMem (a : Memory) (r : Reg) : (s.setMem a).readReg r = s.readReg r := rfl
@[simp] theorem State.byteAt_setV (a : Vector Byte 16) (c : Nat) : (s.setV a).byteAt c = s.byteAt c := rfl
@[simp] theorem State.readReg_setIndex (a : Word) (r : Reg) : (s.setIndex a).readReg r = s.readReg r := rfl
@[simp] theorem State.byteAt_setIndex (a : Word) (c : Nat) : (s.setIndex a).byteAt c = s.byteAt c := rfl
@[simp] theorem State.readReg_setPc (a : Word) (r : Reg) : (s.setPc a).readReg r = s.readReg r := rfl
@[simp] theorem State.byteAt_setPc (a : Word) (c : Nat) : (s.setPc a).byteAt c = s.byteAt c := rfl
@[simp] theorem State.readReg_setStack (a : Vector Word 16) (r : Reg) : (s.setStack a).readReg r = s.readReg r := rfl
@[simp] theorem State.byteAt_setStack (a : Vector Word 16) (c : Nat) : (s.setStack a).byteAt c = s.byteAt c := rfl
@[simp] theorem State.readReg_setSp (a : Fin 17) (r : Reg) : (s.setSp a).readReg r = s.readReg r := rfl
@[simp] theorem State.byteAt_setSp (a : Fin 17) (c : Nat) : (s.setSp a).byteAt c = s.byteAt c := rfl
@[simp] theorem State.readReg_setDt (a : Byte) (r : Reg) : (s.setDt a).readReg r = s.readReg r := rfl
@[simp] theorem State.byteAt_setDt (a : Byte) (c : Nat) : (s.setDt a).byteAt c = s.byteAt c := rfl
@[simp] theorem State.readReg_setSt (a : Byte) (r : Reg) : (s.setSt a).readReg r = s.readReg r := rfl
@[simp] theorem State.byteAt_setSt (a : Byte) (c : Nat) : (s.setSt a).byteAt c = s.byteAt c := rfl
@[simp] theorem State.readReg_setFb (a : Framebuffer) (r : Reg) : (s.setFb a).readReg r = s.readReg r := rfl
@[simp] theorem State.byteAt_setFb (a : Framebuffer) (c : Nat) : (s.setFb a).byteAt c = s.byteAt c := rfl
@[simp] theorem State.readReg_setKey (a : Vector Bool 16) (r : Reg) : (s.setKey a).readReg r = s.readReg r := rfl
@[simp] theorem State.byteAt_setKey (a : Vector Bool 16) (c : Nat) : (s.setKey a).byteAt c = s.byteAt c := rfl
@[simp] theorem State.readReg_setRnd (a : Byte) (r : Reg) : (s.setRnd a).readReg r = s.readReg r := rfl
@[simp] theorem State.byteAt_setRnd (a : Byte) (c : Nat) : (s.setRnd a).byteAt c = s.byteAt c := rfl
@[simp] theorem State.readReg_setDraws (a : Nat) (r : Reg) : (s.setDraws a).readReg r = s.readReg r := rfl
@[simp] theorem State.byteAt_setDraws (a : Nat) (c : Nat) : (s.setDraws a).byteAt c = s.byteAt c := rfl
@[simp] theorem State.readReg_setPending (a : List Event) (r : Reg) : (s.setPending a).readReg r = s.readReg r := rfl
@[simp] theorem State.byteAt_setPending (a : List Event) (c : Nat) : (s.setPending a).byteAt c = s.byteAt c := rfl
@[simp] theorem State.readReg_setReply (a : Reply) (r : Reg) : (s.setReply a).readReg r = s.readReg r := rfl
@[simp] theorem State.byteAt_setReply (a : Reply) (c : Nat) : (s.setReply a).byteAt c = s.byteAt c := rfl

/-! The fields each composite operation leaves. -/

@[simp] theorem State.raise_mem (k : ErrorKind) (info : Word) : (s.raise k info).mem = s.mem := rfl
@[simp] theorem State.raise_v (k : ErrorKind) (info : Word) : (s.raise k info).v = s.v := rfl
@[simp] theorem State.raise_index (k : ErrorKind) (info : Word) : (s.raise k info).index = s.index := rfl
@[simp] theorem State.raise_pc (k : ErrorKind) (info : Word) : (s.raise k info).pc = s.pc := rfl
@[simp] theorem State.raise_stack (k : ErrorKind) (info : Word) : (s.raise k info).stack = s.stack := rfl
@[simp] theorem State.raise_sp (k : ErrorKind) (info : Word) : (s.raise k info).sp = s.sp := rfl
@[simp] theorem State.raise_dt (k : ErrorKind) (info : Word) : (s.raise k info).dt = s.dt := rfl
@[simp] theorem State.raise_st (k : ErrorKind) (info : Word) : (s.raise k info).st = s.st := rfl
@[simp] theorem State.raise_fb (k : ErrorKind) (info : Word) : (s.raise k info).fb = s.fb := rfl
@[simp] theorem State.raise_key (k : ErrorKind) (info : Word) : (s.raise k info).key = s.key := rfl
@[simp] theorem State.raise_params (k : ErrorKind) (info : Word) : (s.raise k info).params = s.params := rfl
@[simp] theorem State.raise_rnd (k : ErrorKind) (info : Word) : (s.raise k info).rnd = s.rnd := rfl
@[simp] theorem State.raise_draws (k : ErrorKind) (info : Word) : (s.raise k info).draws = s.draws := rfl
@[simp] theorem State.raise_pending (k : ErrorKind) (info : Word) : (s.raise k info).pending = s.pending := rfl
@[simp] theorem State.readReg_raise (k : ErrorKind) (info : Word) (q : Reg) : (s.raise k info).readReg q = s.readReg q := rfl
@[simp] theorem State.byteAt_raise (k : ErrorKind) (info : Word) (c : Nat) : (s.raise k info).byteAt c = s.byteAt c := rfl

@[simp] theorem State.writeReg_mem (r : Reg) (b : Byte) : (s.writeReg r b).mem = s.mem := rfl
@[simp] theorem State.writeReg_index (r : Reg) (b : Byte) : (s.writeReg r b).index = s.index := rfl
@[simp] theorem State.writeReg_pc (r : Reg) (b : Byte) : (s.writeReg r b).pc = s.pc := rfl
@[simp] theorem State.writeReg_stack (r : Reg) (b : Byte) : (s.writeReg r b).stack = s.stack := rfl
@[simp] theorem State.writeReg_sp (r : Reg) (b : Byte) : (s.writeReg r b).sp = s.sp := rfl
@[simp] theorem State.writeReg_dt (r : Reg) (b : Byte) : (s.writeReg r b).dt = s.dt := rfl
@[simp] theorem State.writeReg_st (r : Reg) (b : Byte) : (s.writeReg r b).st = s.st := rfl
@[simp] theorem State.writeReg_fb (r : Reg) (b : Byte) : (s.writeReg r b).fb = s.fb := rfl
@[simp] theorem State.writeReg_key (r : Reg) (b : Byte) : (s.writeReg r b).key = s.key := rfl
@[simp] theorem State.writeReg_params (r : Reg) (b : Byte) : (s.writeReg r b).params = s.params := rfl
@[simp] theorem State.writeReg_rnd (r : Reg) (b : Byte) : (s.writeReg r b).rnd = s.rnd := rfl
@[simp] theorem State.writeReg_draws (r : Reg) (b : Byte) : (s.writeReg r b).draws = s.draws := rfl
@[simp] theorem State.writeReg_pending (r : Reg) (b : Byte) : (s.writeReg r b).pending = s.pending := rfl
@[simp] theorem State.writeReg_reply (r : Reg) (b : Byte) : (s.writeReg r b).reply = s.reply := rfl
@[simp] theorem State.byteAt_writeReg (r : Reg) (b : Byte) (c : Nat) : (s.writeReg r b).byteAt c = s.byteAt c := rfl

@[simp] theorem State.setByte_v (a : Nat) (b : Byte) : (s.setByte a b).v = s.v := rfl
@[simp] theorem State.setByte_index (a : Nat) (b : Byte) : (s.setByte a b).index = s.index := rfl
@[simp] theorem State.setByte_pc (a : Nat) (b : Byte) : (s.setByte a b).pc = s.pc := rfl
@[simp] theorem State.setByte_stack (a : Nat) (b : Byte) : (s.setByte a b).stack = s.stack := rfl
@[simp] theorem State.setByte_sp (a : Nat) (b : Byte) : (s.setByte a b).sp = s.sp := rfl
@[simp] theorem State.setByte_dt (a : Nat) (b : Byte) : (s.setByte a b).dt = s.dt := rfl
@[simp] theorem State.setByte_st (a : Nat) (b : Byte) : (s.setByte a b).st = s.st := rfl
@[simp] theorem State.setByte_fb (a : Nat) (b : Byte) : (s.setByte a b).fb = s.fb := rfl
@[simp] theorem State.setByte_key (a : Nat) (b : Byte) : (s.setByte a b).key = s.key := rfl
@[simp] theorem State.setByte_params (a : Nat) (b : Byte) : (s.setByte a b).params = s.params := rfl
@[simp] theorem State.setByte_rnd (a : Nat) (b : Byte) : (s.setByte a b).rnd = s.rnd := rfl
@[simp] theorem State.setByte_draws (a : Nat) (b : Byte) : (s.setByte a b).draws = s.draws := rfl
@[simp] theorem State.setByte_pending (a : Nat) (b : Byte) : (s.setByte a b).pending = s.pending := rfl
@[simp] theorem State.setByte_reply (a : Nat) (b : Byte) : (s.setByte a b).reply = s.reply := rfl
@[simp] theorem State.readReg_setByte (a : Nat) (b : Byte) (q : Reg) : (s.setByte a b).readReg q = s.readReg q := rfl

@[simp] theorem State.setBytes_v (a : Nat) (bs : List Byte) : (s.setBytes a bs).v = s.v := rfl
@[simp] theorem State.setBytes_index (a : Nat) (bs : List Byte) : (s.setBytes a bs).index = s.index := rfl
@[simp] theorem State.setBytes_pc (a : Nat) (bs : List Byte) : (s.setBytes a bs).pc = s.pc := rfl
@[simp] theorem State.setBytes_stack (a : Nat) (bs : List Byte) : (s.setBytes a bs).stack = s.stack := rfl
@[simp] theorem State.setBytes_sp (a : Nat) (bs : List Byte) : (s.setBytes a bs).sp = s.sp := rfl
@[simp] theorem State.setBytes_dt (a : Nat) (bs : List Byte) : (s.setBytes a bs).dt = s.dt := rfl
@[simp] theorem State.setBytes_st (a : Nat) (bs : List Byte) : (s.setBytes a bs).st = s.st := rfl
@[simp] theorem State.setBytes_fb (a : Nat) (bs : List Byte) : (s.setBytes a bs).fb = s.fb := rfl
@[simp] theorem State.setBytes_key (a : Nat) (bs : List Byte) : (s.setBytes a bs).key = s.key := rfl
@[simp] theorem State.setBytes_params (a : Nat) (bs : List Byte) : (s.setBytes a bs).params = s.params := rfl
@[simp] theorem State.setBytes_rnd (a : Nat) (bs : List Byte) : (s.setBytes a bs).rnd = s.rnd := rfl
@[simp] theorem State.setBytes_draws (a : Nat) (bs : List Byte) : (s.setBytes a bs).draws = s.draws := rfl
@[simp] theorem State.setBytes_pending (a : Nat) (bs : List Byte) : (s.setBytes a bs).pending = s.pending := rfl
@[simp] theorem State.setBytes_reply (a : Nat) (bs : List Byte) : (s.setBytes a bs).reply = s.reply := rfl
@[simp] theorem State.readReg_setBytes (a : Nat) (bs : List Byte) (q : Reg) : (s.setBytes a bs).readReg q = s.readReg q := rfl

@[simp] theorem State.skipIf_mem (c : Bool) : (s.skipIf c).mem = s.mem := by cases c <;> rfl
@[simp] theorem State.skipIf_v (c : Bool) : (s.skipIf c).v = s.v := by cases c <;> rfl
@[simp] theorem State.skipIf_index (c : Bool) : (s.skipIf c).index = s.index := by cases c <;> rfl
@[simp] theorem State.skipIf_stack (c : Bool) : (s.skipIf c).stack = s.stack := by cases c <;> rfl
@[simp] theorem State.skipIf_sp (c : Bool) : (s.skipIf c).sp = s.sp := by cases c <;> rfl
@[simp] theorem State.skipIf_dt (c : Bool) : (s.skipIf c).dt = s.dt := by cases c <;> rfl
@[simp] theorem State.skipIf_st (c : Bool) : (s.skipIf c).st = s.st := by cases c <;> rfl
@[simp] theorem State.skipIf_fb (c : Bool) : (s.skipIf c).fb = s.fb := by cases c <;> rfl
@[simp] theorem State.skipIf_key (c : Bool) : (s.skipIf c).key = s.key := by cases c <;> rfl
@[simp] theorem State.skipIf_params (c : Bool) : (s.skipIf c).params = s.params := by cases c <;> rfl
@[simp] theorem State.skipIf_rnd (c : Bool) : (s.skipIf c).rnd = s.rnd := by cases c <;> rfl
@[simp] theorem State.skipIf_draws (c : Bool) : (s.skipIf c).draws = s.draws := by cases c <;> rfl
@[simp] theorem State.skipIf_pending (c : Bool) : (s.skipIf c).pending = s.pending := by cases c <;> rfl
@[simp] theorem State.skipIf_reply (c : Bool) : (s.skipIf c).reply = s.reply := by cases c <;> rfl
@[simp] theorem State.readReg_skipIf (c : Bool) (q : Reg) : (s.skipIf c).readReg q = s.readReg q := by cases c <;> rfl
@[simp] theorem State.byteAt_skipIf (c : Bool) (a : Nat) : (s.skipIf c).byteAt a = s.byteAt a := by cases c <;> rfl

@[simp] theorem State.tick_mem : s.tick.mem = s.mem := rfl
@[simp] theorem State.tick_v : s.tick.v = s.v := rfl
@[simp] theorem State.tick_index : s.tick.index = s.index := rfl
@[simp] theorem State.tick_pc : s.tick.pc = s.pc := rfl
@[simp] theorem State.tick_stack : s.tick.stack = s.stack := rfl
@[simp] theorem State.tick_sp : s.tick.sp = s.sp := rfl
@[simp] theorem State.tick_fb : s.tick.fb = s.fb := rfl
@[simp] theorem State.tick_key : s.tick.key = s.key := rfl
@[simp] theorem State.tick_params : s.tick.params = s.params := rfl
@[simp] theorem State.tick_rnd : s.tick.rnd = s.rnd := rfl
@[simp] theorem State.tick_draws : s.tick.draws = s.draws := rfl
@[simp] theorem State.tick_pending : s.tick.pending = s.pending := rfl
@[simp] theorem State.tick_reply : s.tick.reply = s.reply := rfl
@[simp] theorem State.readReg_tick (q : Reg) : s.tick.readReg q = s.readReg q := rfl
@[simp] theorem State.byteAt_tick (c : Nat) : s.tick.byteAt c = s.byteAt c := rfl

@[simp] theorem State.writeFlagged_mem (x : Reg) (g b : Byte) : (s.writeFlagged x g b).mem = s.mem := by
  unfold State.writeFlagged; split <;> rfl
@[simp] theorem State.writeFlagged_index (x : Reg) (g b : Byte) : (s.writeFlagged x g b).index = s.index := by
  unfold State.writeFlagged; split <;> rfl
@[simp] theorem State.writeFlagged_pc (x : Reg) (g b : Byte) : (s.writeFlagged x g b).pc = s.pc := by
  unfold State.writeFlagged; split <;> rfl
@[simp] theorem State.writeFlagged_stack (x : Reg) (g b : Byte) : (s.writeFlagged x g b).stack = s.stack := by
  unfold State.writeFlagged; split <;> rfl
@[simp] theorem State.writeFlagged_sp (x : Reg) (g b : Byte) : (s.writeFlagged x g b).sp = s.sp := by
  unfold State.writeFlagged; split <;> rfl
@[simp] theorem State.writeFlagged_dt (x : Reg) (g b : Byte) : (s.writeFlagged x g b).dt = s.dt := by
  unfold State.writeFlagged; split <;> rfl
@[simp] theorem State.writeFlagged_st (x : Reg) (g b : Byte) : (s.writeFlagged x g b).st = s.st := by
  unfold State.writeFlagged; split <;> rfl
@[simp] theorem State.writeFlagged_fb (x : Reg) (g b : Byte) : (s.writeFlagged x g b).fb = s.fb := by
  unfold State.writeFlagged; split <;> rfl
@[simp] theorem State.writeFlagged_key (x : Reg) (g b : Byte) : (s.writeFlagged x g b).key = s.key := by
  unfold State.writeFlagged; split <;> rfl
@[simp] theorem State.writeFlagged_params (x : Reg) (g b : Byte) : (s.writeFlagged x g b).params = s.params := by
  unfold State.writeFlagged; split <;> rfl
@[simp] theorem State.writeFlagged_rnd (x : Reg) (g b : Byte) : (s.writeFlagged x g b).rnd = s.rnd := by
  unfold State.writeFlagged; split <;> rfl
@[simp] theorem State.writeFlagged_draws (x : Reg) (g b : Byte) : (s.writeFlagged x g b).draws = s.draws := by
  unfold State.writeFlagged; split <;> rfl
@[simp] theorem State.writeFlagged_pending (x : Reg) (g b : Byte) : (s.writeFlagged x g b).pending = s.pending := by
  unfold State.writeFlagged; split <;> rfl
@[simp] theorem State.writeFlagged_reply (x : Reg) (g b : Byte) : (s.writeFlagged x g b).reply = s.reply := by
  unfold State.writeFlagged; split <;> rfl
@[simp] theorem State.byteAt_writeFlagged (x : Reg) (g b : Byte) (c : Nat) : (s.writeFlagged x g b).byteAt c = s.byteAt c := by
  unfold State.writeFlagged; split <;> rfl

@[simp] theorem State.beginStep_mem (b : Byte) : (s.beginStep b).mem = s.mem := rfl
@[simp] theorem State.beginStep_v (b : Byte) : (s.beginStep b).v = s.v := rfl
@[simp] theorem State.beginStep_index (b : Byte) : (s.beginStep b).index = s.index := rfl
@[simp] theorem State.beginStep_pc (b : Byte) : (s.beginStep b).pc = s.pc := rfl
@[simp] theorem State.beginStep_stack (b : Byte) : (s.beginStep b).stack = s.stack := rfl
@[simp] theorem State.beginStep_sp (b : Byte) : (s.beginStep b).sp = s.sp := rfl
@[simp] theorem State.beginStep_dt (b : Byte) : (s.beginStep b).dt = s.dt := rfl
@[simp] theorem State.beginStep_st (b : Byte) : (s.beginStep b).st = s.st := rfl
@[simp] theorem State.beginStep_fb (b : Byte) : (s.beginStep b).fb = s.fb := rfl
@[simp] theorem State.beginStep_key (b : Byte) : (s.beginStep b).key = s.key := rfl
@[simp] theorem State.beginStep_params (b : Byte) : (s.beginStep b).params = s.params := rfl
@[simp] theorem State.beginStep_draws (b : Byte) : (s.beginStep b).draws = s.draws := rfl
@[simp] theorem State.beginStep_pending (b : Byte) : (s.beginStep b).pending = s.pending := rfl
@[simp] theorem State.readReg_beginStep (b : Byte) (q : Reg) : (s.beginStep b).readReg q = s.readReg q := rfl
@[simp] theorem State.byteAt_beginStep (b : Byte) (c : Nat) : (s.beginStep b).byteAt c = s.byteAt c := rfl

@[simp] theorem State.advancePc_mem : s.advancePc.mem = s.mem := rfl
@[simp] theorem State.advancePc_v : s.advancePc.v = s.v := rfl
@[simp] theorem State.advancePc_index : s.advancePc.index = s.index := rfl
@[simp] theorem State.advancePc_stack : s.advancePc.stack = s.stack := rfl
@[simp] theorem State.advancePc_sp : s.advancePc.sp = s.sp := rfl
@[simp] theorem State.advancePc_dt : s.advancePc.dt = s.dt := rfl
@[simp] theorem State.advancePc_st : s.advancePc.st = s.st := rfl
@[simp] theorem State.advancePc_fb : s.advancePc.fb = s.fb := rfl
@[simp] theorem State.advancePc_key : s.advancePc.key = s.key := rfl
@[simp] theorem State.advancePc_params : s.advancePc.params = s.params := rfl
@[simp] theorem State.advancePc_rnd : s.advancePc.rnd = s.rnd := rfl
@[simp] theorem State.advancePc_draws : s.advancePc.draws = s.draws := rfl
@[simp] theorem State.advancePc_pending : s.advancePc.pending = s.pending := rfl
@[simp] theorem State.advancePc_reply : s.advancePc.reply = s.reply := rfl
@[simp] theorem State.readReg_advancePc (q : Reg) : s.advancePc.readReg q = s.readReg q := rfl
@[simp] theorem State.byteAt_advancePc (c : Nat) : s.advancePc.byteAt c = s.byteAt c := rfl

@[simp] theorem State.timerBookkeeping_mem : s.timerBookkeeping.mem = s.mem := by
  unfold State.timerBookkeeping; split <;> rfl
@[simp] theorem State.timerBookkeeping_v : s.timerBookkeeping.v = s.v := by
  unfold State.timerBookkeeping; split <;> rfl
@[simp] theorem State.timerBookkeeping_index : s.timerBookkeeping.index = s.index := by
  unfold State.timerBookkeeping; split <;> rfl
@[simp] theorem State.timerBookkeeping_pc : s.timerBookkeeping.pc = s.pc := by
  unfold State.timerBookkeeping; split <;> rfl
@[simp] theorem State.timerBookkeeping_stack : s.timerBookkeeping.stack = s.stack := by
  unfold State.timerBookkeeping; split <;> rfl
@[simp] theorem State.timerBookkeeping_sp : s.timerBookkeeping.sp = s.sp := by
  unfold State.timerBookkeeping; split <;> rfl
@[simp] theorem State.timerBookkeeping_fb : s.timerBookkeeping.fb = s.fb := by
  unfold State.timerBookkeeping; split <;> rfl
@[simp] theorem State.timerBookkeeping_key : s.timerBookkeeping.key = s.key := by
  unfold State.timerBookkeeping; split <;> rfl
@[simp] theorem State.timerBookkeeping_params : s.timerBookkeeping.params = s.params := by
  unfold State.timerBookkeeping; split <;> rfl
@[simp] theorem State.timerBookkeeping_rnd : s.timerBookkeeping.rnd = s.rnd := by
  unfold State.timerBookkeeping; split <;> rfl
@[simp] theorem State.timerBookkeeping_draws : s.timerBookkeeping.draws = s.draws := by
  unfold State.timerBookkeeping; split <;> rfl
@[simp] theorem State.timerBookkeeping_pending : s.timerBookkeeping.pending = s.pending := by
  unfold State.timerBookkeeping; split <;> rfl
@[simp] theorem State.timerBookkeeping_reply : s.timerBookkeeping.reply = s.reply := by
  unfold State.timerBookkeeping; split <;> rfl
@[simp] theorem State.readReg_timerBookkeeping (q : Reg) : s.timerBookkeeping.readReg q = s.readReg q := by
  unfold State.timerBookkeeping; split <;> rfl
@[simp] theorem State.byteAt_timerBookkeeping (c : Nat) : s.timerBookkeeping.byteAt c = s.byteAt c := by
  unfold State.timerBookkeeping; split <;> rfl

@[simp] theorem State.raise_reply (k : ErrorKind) (info : Word) :
    (s.raise k info).reply = .error ⟨k, info, s.pc⟩ := rfl

@[simp] theorem State.beginStep_rnd (b : Byte) : (s.beginStep b).rnd = b := rfl

@[simp] theorem State.beginStep_reply (b : Byte) : (s.beginStep b).reply = .ok := rfl

@[simp] theorem State.advancePc_pc : s.advancePc.pc = s.pc + 2 := rfl

@[simp] theorem State.tick_dt : s.tick.dt = countDown s.dt := rfl

@[simp] theorem State.tick_st : s.tick.st = countDown s.st := rfl

theorem State.skipIf_pc (c : Bool) : (s.skipIf c).pc = if c then s.pc + 2 else s.pc := by
  cases c <;> rfl

/-! Registers. -/

/-- A register after a write. -/
theorem State.readReg_writeReg (r q : Reg) (b : Byte) :
    (s.writeReg r b).readReg q = if q = r then b else s.readReg q := by
  unfold State.readReg State.writeReg State.setV
  by_cases h : q = r
  · subst h; simp
  · have : r.val ≠ q.val := fun e => h (Fin.ext e.symm)
    simp [h, Vector.getElem_set_ne, this]

@[simp] theorem State.readReg_writeReg_self (r : Reg) (b : Byte) :
    (s.writeReg r b).readReg r = b := by
  rw [State.readReg_writeReg, if_pos rfl]

theorem State.readReg_writeReg_of_ne {r q : Reg} (b : Byte) (h : q ≠ r) :
    (s.writeReg r b).readReg q = s.readReg q := by
  rw [State.readReg_writeReg, if_neg h]

/-- Two register files with the same reading of every register are equal. -/
theorem State.v_ext {s t : State} (h : ∀ r, t.readReg r = s.readReg r) : t.v = s.v :=
  Vector.ext fun k hk => h ⟨k, hk⟩

/-- The registers after the two writes of a flag-writing instruction (40_cycle.md R63). -/
theorem State.readReg_writeFlagged (x q : Reg) (g b : Byte) :
    (s.writeFlagged x g b).readReg q =
      if q = x then (if x = regF ∧ s.params.vfWriteOrder = .resultThenFlag then g else b)
      else if q = regF then g else s.readReg q := by
  unfold State.writeFlagged
  cases h : s.params.vfWriteOrder
  · rw [State.readReg_writeReg, State.readReg_writeReg]
    simp
  · rw [State.readReg_writeReg, State.readReg_writeReg]
    by_cases hq : q = x
    · subst hq; simp
    · simp [hq]

/-- A register after a block load from register `k` up (43_index_memory.md R93). -/
theorem writeBlock_get (v : Vector Byte 16) (k : Nat) (bs : List Byte) (r : Reg) :
    (writeBlock v k bs)[r] =
      if h : k ≤ r.val ∧ r.val < k + bs.length then bs[r.val - k] else v[r] := by
  induction bs generalizing v k with
  | nil =>
    rw [dif_neg (by simp)]; rfl
  | cons b bs ih =>
    rw [writeBlock, ih]
    by_cases h : k + 1 ≤ r.val ∧ r.val < k + 1 + bs.length
    · have h' : k ≤ r.val ∧ r.val < k + (b :: bs).length := by
        simp only [List.length_cons]; omega
      rw [dif_pos h, dif_pos h']
      have e : r.val - k = (r.val - (k + 1)) + 1 := by omega
      simp only [e, List.getElem_cons_succ]
    · rw [dif_neg h]
      by_cases hk : r.val = k
      · rw [dif_pos (by simp only [List.length_cons]; omega)]
        have e : r.val - k = 0 := by omega
        simp only [e, List.getElem_cons_zero]
        simp [hk]
      · rw [dif_neg (by simp only [List.length_cons]; omega)]
        have : k ≠ r.val := fun e => hk e.symm
        simp [this]

/-- The block of registers `V[0]` to `V[x]` has `x + 1` bytes. -/
@[simp] theorem State.readBlock_length (x : Reg) : (s.readBlock x).length = x.val + 1 := by
  simp only [State.readBlock, List.length_take, Vector.length_toList]
  omega

theorem State.readBlock_getElem (x : Reg) (k : Nat) (h : k < (s.readBlock x).length) :
    (s.readBlock x)[k] = s.readReg ⟨k, by rw [State.readBlock_length] at h; omega⟩ := by
  simp [State.readBlock, State.readReg]

/-! Memory. -/

@[simp] theorem State.bytesAt_length (a n : Nat) : (s.bytesAt a n).length = n :=
  Memory.readAll_length _ _ _ _

theorem State.bytesAt_getElem (a n k : Nat) (h : k < (s.bytesAt a n).length) :
    (s.bytesAt a n)[k] = s.byteAt (a + k) :=
  Memory.readAll_getElem _ _ _ _ _ h

/-- A store leaves every byte outside it alone. -/
theorem State.byteAt_setBytes_outside {a c : Nat} (bs : List Byte)
    (h : c < a ∨ a + bs.length ≤ c) : (s.setBytes a bs).byteAt c = s.byteAt c :=
  Memory.read_writeAll_outside _ _ _ h

/-- A store in a canonical memory is read back. -/
theorem State.byteAt_setBytes_inside (hm : Memory.wf s.params.glyphRom s.mem = true) {a k : Nat}
    (bs : List Byte) (hk : k < bs.length) (ha : a + bs.length ≤ memSize) :
    (s.setBytes a bs).byteAt (a + k) = bs[k] :=
  Memory.read_writeAll_inside _ hm _ hk ha

/-- The range check passes exactly when the range is empty or inside memory (R87). -/
theorem State.checkRange_cases (m : Nat) :
    (s.checkRange m = .ok () ∧ (m = 0 ∨ s.index.toNat + m ≤ 4096)) ∨
    (s.checkRange m = .raises .addressOutOfRange (BitVec.ofNat 16 (max s.index.toNat 4096)) ∧
      0 < m ∧ 4096 < s.index.toNat + m) := by
  have := s.index.isLt
  unfold State.checkRange lowestBad saturate16 memSize
  split_ifs with h
  · right
    refine ⟨?_, by omega, by omega⟩
    rw [Nat.min_eq_left (by omega)]
  · left
    exact ⟨rfl, by omega⟩

theorem State.checkRange_ok {m : Nat} (h : m = 0 ∨ s.index.toNat + m ≤ 4096) :
    s.checkRange m = .ok () := by
  rcases s.checkRange_cases m with h' | h'
  · exact h'.1
  · omega

theorem State.checkRange_raises {m : Nat} (h0 : 0 < m) (h : 4096 < s.index.toNat + m) :
    s.checkRange m = .raises .addressOutOfRange (BitVec.ofNat 16 (max s.index.toNat 4096)) := by
  rcases s.checkRange_cases m with h' | h'
  · omega
  · exact h'.1

/-! A handler with one check. -/

@[simp] theorem conclude_ok {α : Type} (a : α) (f : α → State) :
    conclude (.ok a) s f = .next (f a) := rfl

@[simp] theorem conclude_raises {α : Type} (k : ErrorKind) (info : Word) (f : α → State) :
    conclude (.raises k info) s f = .next (s.raise k info) := rfl

/-- Everything `conclude` can answer. -/
theorem conclude_cases {α : Type} {c : Checked α} {s t : State} {f : α → State}
    (h : conclude c s f = .next t) :
    (∃ a, c = .ok a ∧ t = f a) ∨ (∃ k info, c = .raises k info ∧ t = s.raise k info) := by
  cases c with
  | ok a => exact .inl ⟨a, rfl, by simpa [conclude] using h.symm⟩
  | raises k info => exact .inr ⟨k, info, rfl, by simpa [conclude] using h.symm⟩

/-! The stack. -/

theorem State.push_ok (a info : Word) (h : s.sp.val < 16) :
    s.push a info =
      .ok ((s.setStack (s.stack.set s.sp.val a)).setSp ⟨s.sp.val + 1, by omega⟩) := by
  unfold State.push; rw [dif_pos h]

theorem State.push_full (a info : Word) (h : ¬ s.sp.val < 16) :
    s.push a info = .raises .stackOverflow info := by
  unfold State.push; rw [dif_neg h]

theorem State.pop_ok (info : Word) (h : s.sp.val ≠ 0) :
    s.pop info = .ok (s.stack[s.sp.val - 1], s.setSp ⟨s.sp.val - 1, by omega⟩) := by
  unfold State.pop; rw [dif_neg h]

theorem State.pop_empty (info : Word) (h : s.sp.val = 0) :
    s.pop info = .raises .stackUnderflow info := by
  unfold State.pop; rw [dif_pos h]

/-! The keypad. -/

/-- Everything `KeyAt` can answer (45_keypad_timers.md R98). -/
theorem State.keyAt_cases (a : Byte) :
    (∃ h : a.toNat < 16, s.keyAt a = .ok s.key[a.toNat]) ∨
    (16 ≤ a.toNat ∧ s.params.keyIndexPolicy = .fault ∧
      s.keyAt a = .raises .keyIndexOutOfRange (a.setWidth 16)) ∨
    (16 ≤ a.toNat ∧ s.params.keyIndexPolicy = .maskLow4 ∧
      s.keyAt a = .ok (s.key[a.toNat % 16]'(Nat.mod_lt _ (by decide)))) := by
  unfold State.keyAt
  cases hp : s.params.keyIndexPolicy
  · by_cases h : a.toNat < 16
    · left; exact ⟨h, by simp [h]⟩
    · right; left; exact ⟨by omega, rfl, by simp [h]⟩
  · by_cases h : a.toNat < 16
    · left; refine ⟨h, ?_⟩; simp [Nat.mod_eq_of_lt h]
    · right; right; exact ⟨by omega, rfl, rfl⟩

/-! The timers. -/

/-- One countdown as a number: it saturates at 0 (60_exceptions.md R119). -/
theorem countDown_toNat (t : Byte) : (countDown t).toNat = t.toNat - 1 := by
  unfold countDown
  split_ifs with h
  · subst h; rfl
  · have : t.toNat ≠ 0 := fun e => h (BitVec.eq_of_toNat_eq e)
    have := t.isLt
    rw [BitVec.toNat_sub, show (1 : Byte).toNat = 1 from rfl]
    omega

/-- A Step's closing bookkeeping is one Tick or nothing (40_cycle.md R64). -/
theorem State.timerBookkeeping_cases :
    (s.timerBookkeeping = s.tick ∧ s.params.timerMode = .perStep ∧ s.reply = .ok) ∨
    (s.timerBookkeeping = s ∧ ¬ (s.params.timerMode = .perStep ∧ s.reply = .ok)) := by
  unfold State.timerBookkeeping
  split
  · left; exact ⟨rfl, by assumption, by assumption⟩
  · rename_i h
    right; exact ⟨rfl, fun ⟨h1, h2⟩ => h h1 h2⟩

@[simp] theorem endStep_next : endStep (.next s) = .next s.timerBookkeeping := rfl

/-! The fetch. -/

/-- Everything `CheckFetch` can answer (40_cycle.md R58). -/
theorem State.checkFetch_cases :
    (s.checkFetch = .ok () ∧ s.pc.toNat ≤ 0xFFE ∧
      (s.params.pcCheck = .strict → s.pc.toNat % 2 = 0 ∧ 0x200 ≤ s.pc.toNat)) ∨
    (s.checkFetch = .raises .addressOutOfRange (BitVec.ofNat 16 (max s.pc.toNat 4096)) ∧
      0xFFE < s.pc.toNat) ∨
    (s.checkFetch = .raises .invalidProgramCounter s.pc ∧ s.pc.toNat ≤ 0xFFE ∧
      s.params.pcCheck = .strict ∧ (s.pc.toNat % 2 = 1 ∨ s.pc.toNat < 0x200)) := by
  have hlt := s.pc.isLt
  have hbit : s.pc.getLsbD 0 = decide (s.pc.toNat % 2 = 1) := by
    rw [BitVec.getLsbD, Nat.testBit_zero]
  unfold State.checkFetch lowestBad saturate16 memSize pcValid progBase
  rw [hbit]
  by_cases h : 4096 ≤ s.pc.toNat + 1
  · right; left
    rw [if_pos h, Nat.min_eq_left (by omega)]
    exact ⟨rfl, by omega⟩
  · rw [if_neg h]
    cases hc : s.params.pcCheck
    · by_cases hv : s.pc.toNat % 2 = 0 ∧ 512 ≤ s.pc.toNat
      · left
        simp [hv]; omega
      · right; right
        have : (!decide (s.pc.toNat % 2 = 1) && decide (512 ≤ s.pc.toNat)) = false := by
          simp only [Bool.and_eq_false_iff, Bool.not_eq_false', decide_eq_true_eq, decide_eq_false_iff_not]
          omega
        simp [this]; omega
    · left
      exact ⟨rfl, by omega, by simp⟩

end Sys2Proof.Machine
end

