-- ==== Sys2Proof/Laws/Display.lean ====
section
/-! SUPPORT. The sprite-compositing unit pixel by pixel (spec/44_display.md R94, R97): what one sprite
byte lays on a row, and what composing a whole sprite does to each cell and to the collision. -/

namespace Sys2Proof.Machine

/-- Column `col` of a row under a sprite byte at column `x0` is bit `7 - (col - x0)` of the byte
within the sprite's eight columns, 0 elsewhere (R94). -/
theorem spriteMask_getLsbD (b : Byte) (x0 col : Nat) (hc : col < 64) :
    (spriteMask b x0).getLsbD col =
      (decide (x0 ≤ col ∧ col < x0 + 8) && b.getLsbD (7 - (col - x0))) := by
  unfold spriteMask
  rw [BitVec.getLsbD_shiftLeft, BitVec.getLsbD_setWidth, BitVec.getLsbD_reverse,
    BitVec.getMsbD_eq_getLsbD]
  by_cases h1 : x0 ≤ col
  · by_cases h2 : col < x0 + 8
    · have h3 : col - x0 < 8 := by omega
      have h4 : col - x0 < 64 := by omega
      have h5 : ¬ col < x0 := by omega
      have h6 : 8 - 1 - (col - x0) = 7 - (col - x0) := by omega
      simp [h1, h2, h3, h4, h5, hc]
    · have h3 : ¬ col - x0 < 8 := by omega
      simp [h2, h3]
  · have h5 : col < x0 := by omega
    simp [h1, h5]

/-- The cell of a sprite on `FB[row][col]`: the sprite's first byte falls on row `y0`. -/
def cellOf (x0 : Nat) (bs : List Byte) (y0 row col : Nat) : Bool :=
  decide (y0 ≤ row) && (spriteMask (bs.getD (row - y0) 0) x0).getLsbD col

@[simp] theorem spriteMask_zero (x0 : Nat) : spriteMask 0#8 x0 = 0#64 := by
  rw [spriteMask, show BitVec.reverse 0#8 = 0#8 by decide]
  simp

theorem cellOf_cons (x0 : Nat) (b : Byte) (bs : List Byte) (y0 row col : Nat) :
    cellOf x0 (b :: bs) y0 row col =
      if row = y0 then (spriteMask b x0).getLsbD col else cellOf x0 bs (y0 + 1) row col := by
  unfold cellOf
  by_cases h : row = y0
  · subst h; simp
  · by_cases h' : y0 ≤ row
    · have e : row - y0 = (row - (y0 + 1)) + 1 := by omega
      have e' : y0 + 1 ≤ row := by omega
      simp [h, h', e, e']
    · have e' : ¬ y0 + 1 ≤ row := by omega
      simp [h, h', e']

/-- Every cell after a composition is the old cell XOR the sprite's (R97(a)). -/
theorem compose_pixel (x0 : Nat) (bs : List Byte) (y0 : Nat) (fb : Framebuffer) (row col : Nat)
    (hr : row < 32) :
    Framebuffer.pixel (compose x0 bs y0 fb).1 row col =
      (Framebuffer.pixel fb row col ^^ cellOf x0 bs y0 row col) := by
  induction bs generalizing y0 fb with
  | nil => simp [compose, cellOf]
  | cons b bs ih =>
    rw [compose, cellOf_cons]
    by_cases h : y0 < 32
    · rw [dif_pos h]
      simp only
      rw [ih]
      by_cases e : row = y0
      · subst e
        have : cellOf x0 bs (row + 1) row col = false := by simp [cellOf]
        simp [this, Framebuffer.pixel, hr]
      · have e' : y0 ≠ row := fun x => e x.symm
        simp [e, e', Framebuffer.pixel, hr]
    · rw [dif_neg h]
      have e : row ≠ y0 := by omega
      have : ¬ y0 + 1 ≤ row := by omega
      simp [e, cellOf, this]

/-- A row meets a mask exactly when some column is set in both. -/
theorem row_meets_mask (a m : BitVec 64) :
    ((a &&& m) != 0) = true ↔ ∃ col, col < 64 ∧ a.getLsbD col = true ∧ m.getLsbD col = true := by
  constructor
  · intro h
    by_contra hn
    have : a &&& m = 0 := by
      apply BitVec.eq_of_getLsbD_eq
      intro i hi
      rw [BitVec.getLsbD_and]
      by_cases ha : a.getLsbD i = true
      · by_cases hm : m.getLsbD i = true
        · exact absurd ⟨i, hi, ha, hm⟩ hn
        · simp [hm]
      · simp [ha]
    simp [this] at h
  · rintro ⟨col, hc, ha, hm⟩
    rw [bne_iff_ne]
    intro h0
    have : (a &&& m).getLsbD col = false := by rw [h0]; simp
    rw [BitVec.getLsbD_and, ha, hm] at this
    exact absurd this (by simp)

/-- A composition reports a collision exactly when some cell is set and has a sprite pixel (R97(b)). -/
theorem compose_hit (x0 : Nat) (bs : List Byte) (y0 : Nat) (fb : Framebuffer) :
    (compose x0 bs y0 fb).2 = true ↔
      ∃ row col, row < 32 ∧ col < 64 ∧ Framebuffer.pixel fb row col = true ∧
        cellOf x0 bs y0 row col = true := by
  induction bs generalizing y0 fb with
  | nil => simp [compose, cellOf]
  | cons b bs ih =>
    rw [compose]
    by_cases h : y0 < 32
    · rw [dif_pos h]
      simp only [Bool.or_eq_true]
      rw [ih, row_meets_mask]
      have old : ∀ row col m, row ≠ y0 → Framebuffer.pixel (fb.set y0 m h) row col =
          Framebuffer.pixel fb row col := by
        intro row col m e
        have e' : y0 ≠ row := fun x => e x.symm
        simp [Framebuffer.pixel, e']
      have below : ∀ row col, cellOf x0 bs (y0 + 1) row col = true → row ≠ y0 := by
        intro row col hc e
        simp [cellOf, e] at hc
      constructor
      · rintro (⟨col, hc, ha, hm⟩ | ⟨row, col, hr, hc, ha, hm⟩)
        · refine ⟨y0, col, h, hc, ?_, ?_⟩
          · simpa [Framebuffer.pixel, h] using ha
          · rw [cellOf_cons, if_pos rfl]; exact hm
        · have e := below row col hm
          refine ⟨row, col, hr, hc, ?_, ?_⟩
          · rw [old row col _ e] at ha; exact ha
          · rw [cellOf_cons, if_neg e]; exact hm
      · rintro ⟨row, col, hr, hc, ha, hm⟩
        rw [cellOf_cons] at hm
        by_cases e : row = y0
        · subst e
          left
          rw [if_pos rfl] at hm
          exact ⟨col, hc, by simpa [Framebuffer.pixel, hr] using ha, hm⟩
        · right
          rw [if_neg e] at hm
          exact ⟨row, col, hr, hc, by rw [old row col _ e]; exact ha, hm⟩
    · rw [dif_neg h]
      constructor
      · intro hf; exact absurd hf (by simp)
      · rintro ⟨row, col, hr, _, _, hm⟩
        have : ¬ y0 ≤ row := by omega
        simp [cellOf, this] at hm

/-- What DRW lays on a cell is the sprite pixel R97 names. -/
theorem cellOf_eq_spritePixel (s : State) (x y : Reg) (n row col : Nat) (hc : col < 64) :
    cellOf (originCol (s.readReg x)) (s.bytesAt (s.effAddr 0) n) (originRow (s.readReg y)) row col
      = s.spritePixel x y n row col := by
  unfold cellOf State.spritePixel originRow originCol
  simp only
  by_cases h1 : (s.readReg y).toNat % 32 ≤ row
  · by_cases h2 : row < (s.readReg y).toNat % 32 + n
    · have h3 : row - (s.readReg y).toNat % 32 < (s.bytesAt (s.effAddr 0) n).length := by
        rw [State.bytesAt_length]; omega
      rw [List.getD_eq_getElem?_getD, List.getElem?_eq_getElem (by exact h3), Option.getD_some,
        State.bytesAt_getElem, spriteMask_getLsbD _ _ _ hc]
      simp [h1, h2, State.effAddr]
    · have h3 : (s.bytesAt (s.effAddr 0) n).length ≤ row - (s.readReg y).toNat % 32 := by
        rw [State.bytesAt_length]; omega
      rw [List.getD_eq_getElem?_getD, List.getElem?_eq_none (by exact h3)]
      simp [h2]
  · simp [h1]

/-- Two framebuffers with the same pixels are equal. -/
theorem Framebuffer.ext_pixel {fb fb' : Framebuffer}
    (h : ∀ row col, row < 32 → col < 64 → Framebuffer.pixel fb row col = Framebuffer.pixel fb' row col) :
    fb = fb' := by
  apply Vector.ext
  intro row hr
  apply BitVec.eq_of_getLsbD_eq
  intro col hc
  simpa [Framebuffer.pixel, hr] using h row col hr hc

end Sys2Proof.Machine
end

