-- ==== Sys2Proof/Laws/Exec.lean ====
section
/-! SUPPORT. What running one instruction can do, said once: it always answers a next state; where the
instruction's obligation of spec/70_reset_and_hazards.md R134 holds it leaves the outcome alone, and
where it does not the error report is all that changes (40_cycle.md R62). -/

namespace Sys2Proof.Machine

open Config

/-- The two ways a handler ends. -/
def HandlerOutcome (i : Instr) (s t : State) : Prop :=
  (HandlerOk i s ∧ t.reply = s.reply) ∨
  (¬ HandlerOk i s ∧ ∃ kind info, kind ≠ .invalidProgramCounter ∧ t = s.raise kind info)

/-- A handler with one check: the check passes exactly when the obligation holds, and the writes leave
the outcome alone. -/
theorem conclude_outcome {α : Type} {i : Instr} {s : State} {c : Checked α} {f : α → State}
    (h : (HandlerOk i s ∧ ∃ a, c = .ok a ∧ (f a).reply = s.reply) ∨
      (¬ HandlerOk i s ∧ ∃ kind info, kind ≠ .invalidProgramCounter ∧ c = .raises kind info)) :
    ∃ t, conclude c s f = .next t ∧ HandlerOutcome i s t := by
  rcases h with ⟨hi, a, rfl, hr⟩ | ⟨hi, k, info, hk, rfl⟩
  · exact ⟨f a, rfl, .inl ⟨hi, hr⟩⟩
  · exact ⟨_, rfl, .inr ⟨hi, k, info, hk, rfl⟩⟩

/-- A handler with no check. -/
theorem next_outcome {i : Instr} {s t : State} (hi : HandlerOk i s) (hr : t.reply = s.reply) :
    ∃ u, (.next t : Result) = .next u ∧ HandlerOutcome i s u :=
  ⟨t, rfl, .inl ⟨hi, hr⟩⟩

/-- The range check as the obligation of the instruction that makes it (43_index_memory.md R87). -/
theorem checkRange_outcome {i : Instr} {s : State} {m : Nat} {f : Unit → State}
    (hi : HandlerOk i s ↔ m = 0 ∨ s.index.toNat + m ≤ 4096) (hr : (f ()).reply = s.reply) :
    ∃ t, conclude (s.checkRange m) s f = .next t ∧ HandlerOutcome i s t := by
  refine conclude_outcome ?_
  rcases s.checkRange_cases m with ⟨hc, h⟩ | ⟨hc, h⟩
  · exact .inl ⟨hi.2 h, (), hc, hr⟩
  · exact .inr ⟨fun e => by have := hi.1 e; omega, _, _, by decide, hc⟩

/-- The key check as the obligation of SKP and SKNP (45_keypad_timers.md R98). -/
theorem keyOperand_outcome {i : Instr} {s : State} {x : Reg} {f : Bool → State}
    (hi : HandlerOk i s ↔ (s.params.keyIndexPolicy = .fault → (s.readReg x).toNat ≤ 15))
    (hr : ∀ b, (f b).reply = s.reply) :
    ∃ t, conclude (s.keyOperand x) s f = .next t ∧ HandlerOutcome i s t := by
  refine conclude_outcome ?_
  rcases s.keyAt_cases (s.readReg x) with ⟨h, hc⟩ | ⟨h, hp, hc⟩ | ⟨h, hp, hc⟩
  · exact .inl ⟨hi.2 fun _ => by omega, _, hc, hr _⟩
  · exact .inr ⟨fun e => by have := hi.1 e hp; omega, _, _, by decide, hc⟩
  · exact .inl ⟨hi.2 fun e => (by rw [hp] at e; cases e), _, hc, hr _⟩

/-- What any instruction can do. -/
theorem exec_outcome (i : Instr) (s : State) :
    ∃ t, exec i s = .next t ∧ HandlerOutcome i s t := by
  cases i with
  | cls => exact next_outcome trivial rfl
  | ret =>
    refine conclude_outcome ?_
    by_cases h : s.sp.val = 0
    · exact .inr ⟨fun e => e h, _, _, by decide, s.pop_empty _ h⟩
    · exact .inl ⟨h, _, s.pop_ok _ h, rfl⟩
  | jp a => exact next_outcome trivial rfl
  | call a =>
    refine conclude_outcome ?_
    by_cases h : s.sp.val < 16
    · exact .inl ⟨h, _, s.push_ok _ _ h, rfl⟩
    · exact .inr ⟨h, _, _, by decide, s.push_full _ _ h⟩
  | seImm a b => exact next_outcome trivial (State.skipIf_reply _ _)
  | sneImm a b => exact next_outcome trivial (State.skipIf_reply _ _)
  | seReg a b => exact next_outcome trivial (State.skipIf_reply _ _)
  | ldImm a b => exact next_outcome trivial rfl
  | addImm a b => exact next_outcome trivial rfl
  | ldReg a b => exact next_outcome trivial rfl
  | orReg a b => exact next_outcome trivial rfl
  | andReg a b => exact next_outcome trivial rfl
  | xorReg a b => exact next_outcome trivial rfl
  | addReg a b => exact next_outcome trivial (State.writeFlagged_reply _ _ _ _)
  | subReg a b => exact next_outcome trivial (State.writeFlagged_reply _ _ _ _)
  | shr a b => exact next_outcome trivial (State.writeFlagged_reply _ _ _ _)
  | subnReg a b => exact next_outcome trivial (State.writeFlagged_reply _ _ _ _)
  | shl a b => exact next_outcome trivial (State.writeFlagged_reply _ _ _ _)
  | sneReg a b => exact next_outcome trivial (State.skipIf_reply _ _)
  | ldI a => exact next_outcome trivial rfl
  | jpV0 a => exact next_outcome trivial rfl
  | rnd a b => exact next_outcome trivial rfl
  | drw a b n => exact checkRange_outcome Iff.rfl rfl
  | skp a => exact keyOperand_outcome Iff.rfl fun c => by simp
  | sknp a => exact keyOperand_outcome Iff.rfl fun c => by simp
  | ldVxDt a => exact next_outcome trivial rfl
  | ldDtVx a => exact next_outcome trivial rfl
  | ldStVx a => exact next_outcome trivial rfl
  | addI a => exact next_outcome trivial rfl
  | ldF a => exact next_outcome trivial rfl
  | ldB a => exact checkRange_outcome (by simp [HandlerOk]) rfl
  | ldMemVx a => exact checkRange_outcome (by simp [HandlerOk, Nat.add_assoc]) rfl
  | ldVxMem a => exact checkRange_outcome (by simp [HandlerOk, Nat.add_assoc]) rfl

/-- Running an instruction always answers a next state. -/
theorem exec_next (i : Instr) (s : State) : ∃ t, exec i s = .next t :=
  let ⟨t, h, _⟩ := exec_outcome i s
  ⟨t, h⟩

/-- The fetch check passes exactly when the fetch's obligation holds (40_cycle.md R58). -/
theorem State.checkFetch_ok_iff (s : State) : s.checkFetch = .ok () ↔ FetchOk s := by
  rcases s.checkFetch_cases with h | h | h
  · exact ⟨fun _ => ⟨h.2.1, h.2.2⟩, fun _ => h.1⟩
  · exact ⟨fun e => (by rw [h.1] at e; cases e), fun e => (by have := e.1; omega)⟩
  · exact ⟨fun e => (by rw [h.1] at e; cases e), fun e => (by have := e.2 h.2.2.1; omega)⟩

/-- A Step that can fetch runs the fetched word from the state after the fetch (40_cycle.md R57). -/
theorem stepEvent_of_fetchOk {s : State} (rnd : Byte) (h : FetchOk s) :
    stepEvent rnd s = runWord s.fetchWord { s with pc := s.pc + 2, rnd := rnd, reply := .ok } := by
  have hc : (s.beginStep rnd).checkFetch = .ok () := (s.beginStep rnd).checkFetch_ok_iff.2 h
  unfold stepEvent
  rw [hc]
  rfl

/-- A Step whose fetch is refused changes its report alone (40_cycle.md R58). -/
theorem stepEvent_of_raises {s : State} (rnd : Byte) {kind : ErrorKind} {info : Word}
    (h : s.checkFetch = .raises kind info) :
    stepEvent rnd s = .next { s with rnd := rnd, reply := .error ⟨kind, info, s.pc⟩ } := by
  have hc : (s.beginStep rnd).checkFetch = .raises kind info := h
  unfold stepEvent
  rw [hc]
  rfl

/-- Decoding the two bytes at `PC` is decoding the fetched word. -/
theorem decodeBytes_fetch (s : State) :
    decodeBytes [s.byteAt s.pc.toNat, s.byteAt (s.pc.toNat + 1)] =
      match decodeWord s.fetchWord with
      | .instr i => .instr i []
      | .unknown w => .unknown w [] := rfl

/-- With no event pending the step is a bare Step with the free argument. -/
theorem step_of_nil {s : State} (h : s.pending = []) :
    step s = stepEvent (randomByte s.draws) (s.setDraws (s.draws + 1)) := by
  unfold step; rw [h]

/-- With events pending the step serves the oldest. -/
theorem step_of_cons {s : State} {e : Event} {rest : List Event} (h : s.pending = e :: rest) :
    step s = serve e (s.setPending rest) := by
  unfold step; rw [h]

theorem runWord_instr {w : Word} {i : Instr} {s : State} (h : decodeWord w = .instr i) :
    runWord w s = endStep (exec i s) := by
  unfold runWord; rw [h]

theorem runWord_unknown {w u : Word} {s : State} (h : decodeWord w = .unknown u) :
    runWord w s = .next (s.raiseIllegal u) := by
  unfold runWord; rw [h]

end Sys2Proof.Machine
end

