-- ==== Sys2Proof/Laws/PerInstr.lean ====
section
/-! SUPPORT. The family RoundTrip, one lemma per constructor of Instr: a well-formed instruction's
word decodes to it (spec/30_encoding.md R49, R54). -/

namespace Sys2Proof.Laws.RoundTrip

/-- The word of a well-formed instruction decodes to that instruction. -/
def Statement (i : Instr) : Prop := i.wf = true → decodeWord (encode i) = .instr i

theorem cls : Statement .cls := fun _ => by decide

theorem ret : Statement .ret := fun _ => by decide

theorem jp (nnn : Addr12) : Statement (.jp nnn) := fun _ => by
  simp [encode, decodeWord]

theorem call (nnn : Addr12) : Statement (.call nnn) := fun _ => by
  simp [encode, decodeWord]

theorem seImm (x : Reg) (kk : Byte) : Statement (.seImm x kk) := fun _ => by
  simp [encode, decodeWord]

theorem sneImm (x : Reg) (kk : Byte) : Statement (.sneImm x kk) := fun _ => by
  simp [encode, decodeWord]

theorem seReg (x y : Reg) : Statement (.seReg x y) := fun _ => by
  simp [encode, decodeWord]

theorem ldImm (x : Reg) (kk : Byte) : Statement (.ldImm x kk) := fun _ => by
  simp [encode, decodeWord]

theorem addImm (x : Reg) (kk : Byte) : Statement (.addImm x kk) := fun _ => by
  simp [encode, decodeWord]

theorem ldReg (x y : Reg) : Statement (.ldReg x y) := fun _ => by
  simp [encode, decodeWord, decodeGroup8]

theorem orReg (x y : Reg) : Statement (.orReg x y) := fun _ => by
  simp [encode, decodeWord, decodeGroup8]

theorem andReg (x y : Reg) : Statement (.andReg x y) := fun _ => by
  simp [encode, decodeWord, decodeGroup8]

theorem xorReg (x y : Reg) : Statement (.xorReg x y) := fun _ => by
  simp [encode, decodeWord, decodeGroup8]

theorem addReg (x y : Reg) : Statement (.addReg x y) := fun _ => by
  simp [encode, decodeWord, decodeGroup8]

theorem subReg (x y : Reg) : Statement (.subReg x y) := fun _ => by
  simp [encode, decodeWord, decodeGroup8]

theorem shr (x y : Reg) : Statement (.shr x y) := fun _ => by
  simp [encode, decodeWord, decodeGroup8]

theorem subnReg (x y : Reg) : Statement (.subnReg x y) := fun _ => by
  simp [encode, decodeWord, decodeGroup8]

theorem shl (x y : Reg) : Statement (.shl x y) := fun _ => by
  simp [encode, decodeWord, decodeGroup8]

theorem sneReg (x y : Reg) : Statement (.sneReg x y) := fun _ => by
  simp [encode, decodeWord]

theorem ldI (nnn : Addr12) : Statement (.ldI nnn) := fun _ => by
  simp [encode, decodeWord]

theorem jpV0 (nnn : Addr12) : Statement (.jpV0 nnn) := fun _ => by
  simp [encode, decodeWord]

theorem rnd (x : Reg) (kk : Byte) : Statement (.rnd x kk) := fun _ => by
  simp [encode, decodeWord]

theorem drw (x y : Reg) (n : Nat) : Statement (.drw x y n) := by
  intro h
  have hn : n ≤ 15 := of_decide_eq_true h
  have hm : n % 16 = n := Nat.mod_eq_of_lt (by omega)
  simp [encode, decodeWord, hm]

theorem skp (x : Reg) : Statement (.skp x) := fun _ => by
  simp [encode, decodeWord]

theorem sknp (x : Reg) : Statement (.sknp x) := fun _ => by
  simp [encode, decodeWord]

theorem ldVxDt (x : Reg) : Statement (.ldVxDt x) := fun _ => by
  simp [encode, decodeWord, decodeGroupF]

theorem ldDtVx (x : Reg) : Statement (.ldDtVx x) := fun _ => by
  simp [encode, decodeWord, decodeGroupF]

theorem ldStVx (x : Reg) : Statement (.ldStVx x) := fun _ => by
  simp [encode, decodeWord, decodeGroupF]

theorem addI (x : Reg) : Statement (.addI x) := fun _ => by
  simp [encode, decodeWord, decodeGroupF]

theorem ldF (x : Reg) : Statement (.ldF x) := fun _ => by
  simp [encode, decodeWord, decodeGroupF]

theorem ldB (x : Reg) : Statement (.ldB x) := fun _ => by
  simp [encode, decodeWord, decodeGroupF]

theorem ldMemVx (x : Reg) : Statement (.ldMemVx x) := fun _ => by
  simp [encode, decodeWord, decodeGroupF]

theorem ldVxMem (x : Reg) : Statement (.ldVxMem x) := fun _ => by
  simp [encode, decodeWord, decodeGroupF]

end Sys2Proof.Laws.RoundTrip
end

