-- ==== Sys2Proof/Laws/Run.lean ====
section
/-! SUPPORT. The end of a run (spec/70_reset_and_hazards.md R136): a self-jump repeats one instruction for
as long as it is stepped and is no halt, and a run has at most one end. -/

namespace Sys2Proof.Machine

open Config

/-- The target of a self-jump is the `PC` it stands at. -/
theorem zextNnn_setWidth {a : Word} (h : a.toNat ≤ 0xFFE) : zextNnn (a.setWidth 12) = a := by
  apply BitVec.eq_of_toNat_eq
  simp only [zextNnn, BitVec.toNat_setWidth]
  omega

/-- One Step at a self-jump: only the timers, the Step's argument, its counter and the outcome can
change, and the machine stands at the same self-jump (R67, R136). -/
theorem step_atSelfJump {s : State} (h : AtSelfJump s) (hp : s.pending = []) :
    ∃ t, step s = .next t ∧ AtSelfJump t ∧ t.erred = false ∧
      Keeps [.dt, .st, .rnd, .draws, .reply] s t := by
  obtain ⟨hf, hd⟩ := h
  have hw : decodeWord s.fetchWord = .instr (.jp (s.pc.setWidth 12)) := by
    rw [decodeBytes_fetch] at hd
    split at hd
    · rename_i i hi
      injection hd with hd
      rw [hi, hd]
    · cases hd
  let u : State := { s with rnd := randomByte s.draws, draws := s.draws + 1, reply := .ok }
  refine ⟨u.timerBookkeeping, ?_, ?_⟩
  · have hf' : FetchOk (s.setDraws (s.draws + 1)) := hf
    have hw' : decodeWord (s.setDraws (s.draws + 1)).fetchWord
        = .instr (.jp (s.pc.setWidth 12)) := hw
    rw [step_of_nil hp, stepEvent_of_fetchOk _ hf', runWord_instr hw']
    simp only [exec, execJp, endStep_next, zextNnn_setWidth hf.1]
    rfl
  · have hu : u.timerBookkeeping = u ∨ u.timerBookkeeping = u.tick := by
      unfold State.timerBookkeeping
      split
      · exact .inr rfl
      · exact .inl rfl
    rcases hu with e | e <;> rw [e] <;>
      exact ⟨⟨hf, hd⟩, rfl, rfl, fun _ _ => rfl, fun _ _ => rfl, by simp [u]⟩

/-- With nothing pending the run at a self-jump is infinite: it is no halt (R67, R136). -/
theorem after_atSelfJump (n : Nat) {s : State} (h : AtSelfJump s) (hp : s.pending = []) :
    ∃ t, State.after n s = some t ∧ AtSelfJump t ∧ t.pc = s.pc := by
  induction n generalizing s with
  | zero => exact ⟨s, rfl, h, rfl⟩
  | succ n ih =>
    obtain ⟨u, hs, hu, -, hk⟩ := step_atSelfJump h hp
    have hpc : u.pc = s.pc := hk.2.2.2.2.1 (by decide)
    have hpe : u.pending = s.pending := hk.2.2.2.2.2.2.2.2.2.2.2.2.2.1 (by decide)
    obtain ⟨t, ht, hj, e⟩ := ih hu (hpe.trans hp)
    exact ⟨t, by rw [State.after, hs]; exact ht, hj, e.trans hpc⟩

/-- A run has at most one end. -/
theorem endsAfter_unique {n m : Nat} {s t u : State} (ht : EndsAfter n s t) (hu : EndsAfter m s u) :
    n = m ∧ t = u := by
  have e : n = m := by
    rcases Nat.lt_trichotomy n m with h | h | h
    · exact absurd ht.2.1 (hu.2.2 n h t ht.1)
    · exact h
    · exact absurd hu.2.1 (ht.2.2 m h u hu.1)
  subst e
  exact ⟨rfl, Option.some.inj (ht.1.symm.trans hu.1)⟩

end Sys2Proof.Machine
end

