-- ==== Sys2Proof/Laws/Step.lean ====
section
/-! SUPPORT. What one event can do, said once for every property of the machine's memory, parameters,
`PC` and stack: it is kept by every step if every instruction, `Reset` and `LoadProgram` keep it. -/

namespace Sys2Proof.Machine

open Config

/-- A property of memory, parameters, `PC` and stack that instructions keep is kept by a Step. -/
theorem stepEvent_invariant {P : State → Prop}
    (same : ∀ s t : State, t.mem = s.mem → t.params = s.params → t.pc = s.pc → t.stack = s.stack →
      P s → P t)
    (fetched : ∀ s, FetchOk s → P s → P { s with pc := s.pc + 2 })
    (ran : ∀ i s t, FetchOk s → P s → exec i { s with pc := s.pc + 2 } = .next t → P t)
    {rnd : Byte} {s t : State} (hP : P s) (ht : stepEvent rnd s = .next t) : P t := by
  cases hc : s.checkFetch with
  | raises k info =>
    rw [stepEvent_of_raises rnd hc] at ht
    exact Host.Outcome.next.inj ht ▸ same s _ rfl rfl rfl rfl hP
  | ok u =>
    have hf := s.checkFetch_ok_iff.1 hc
    rw [stepEvent_of_fetchOk rnd hf] at ht
    have hP' : P { s with rnd := rnd, reply := .ok } := same s _ rfl rfl rfl rfl hP
    rcases decodeWord_cases s.fetchWord with ⟨i, hi⟩ | hu
    · obtain ⟨v, hv⟩ := exec_next i { s with pc := s.pc + 2, rnd := rnd, reply := .ok }
      rw [runWord_instr hi, hv, endStep_next] at ht
      rw [← Host.Outcome.next.inj ht]
      exact same v _ v.timerBookkeeping_mem v.timerBookkeeping_params v.timerBookkeeping_pc
        v.timerBookkeeping_stack (ran i { s with rnd := rnd, reply := .ok } v hf hP' hv)
    · rw [runWord_unknown hu] at ht
      rw [← Host.Outcome.next.inj ht]
      exact same { s with pc := s.pc + 2 } _ rfl rfl rfl rfl (fetched s hf hP)

/-- The same for every step: `Reset` and `LoadProgram` are the other events that write memory, `PC` or
the stack. -/
theorem step_invariant {P : State → Prop}
    (same : ∀ s t : State, t.mem = s.mem → t.params = s.params → t.pc = s.pc → t.stack = s.stack →
      P s → P t)
    (fetched : ∀ s, FetchOk s → P s → P { s with pc := s.pc + 2 })
    (ran : ∀ i s t, FetchOk s → P s → exec i { s with pc := s.pc + 2 } = .next t → P t)
    (reset : ∀ s, P s → P s.onReset)
    (loaded : ∀ s bytes, P s → bytes.length ≤ progMax → P (s.setBytes progBase bytes))
    {s t : State} (hP : P s) (ht : step s = .next t) : P t := by
  cases hp : s.pending with
  | nil =>
    rw [step_of_nil hp] at ht
    exact stepEvent_invariant (rnd := randomByte s.draws) same fetched ran
      (same s (s.setDraws (s.draws + 1)) rfl rfl rfl rfl hP) ht
  | cons e rest =>
    rw [step_of_cons hp] at ht
    have hP' : P (s.setPending rest) := same s (s.setPending rest) rfl rfl rfl rfl hP
    cases e
    case step r => exact stepEvent_invariant (rnd := r) same fetched ran hP' ht
    case reset => exact Host.Outcome.next.inj ht ▸ reset _ hP'
    case loadProgram bytes =>
      rw [← Host.Outcome.next.inj ht]
      unfold State.onLoadProgram
      split_ifs with hl
      · exact same (s.setPending rest) _ rfl rfl rfl rfl hP'
      · exact same ((s.setPending rest).setBytes progBase bytes) _ rfl rfl rfl rfl
          (loaded _ bytes hP' (by omega))
    case tick =>
      rw [← Host.Outcome.next.inj ht]
      unfold State.onTick
      split <;> exact same (s.setPending rest) _ rfl rfl rfl rfl hP'
    case readByte a =>
      rw [← Host.Outcome.next.inj ht]
      unfold State.onReadByte
      split <;> exact same (s.setPending rest) _ rfl rfl rfl rfl hP'
    all_goals exact Host.Outcome.next.inj ht ▸ same (s.setPending rest) _ rfl rfl rfl rfl hP'

end Sys2Proof.Machine
end

