-- ==== Sys2Proof/Tests/Slice0.lean ====
section
/-! SUPPORT. The model's own tests: the WellFormed smoke test, decoding of words written out from
spec/30_encoding.md R48 and spec/95_test_vectors.md 2.1, single steps with the results of
spec/95_test_vectors.md 2.2 to 2.8, and for each statement with hypotheses a state that meets them. -/

namespace Sys2Proof.Tests

open Sys2Proof Sys2Proof.Machine Sys2Proof.Config

/-! Helpers. -/

/-- The reset state with some registers set. -/
def regs (rs : List (Reg × Byte)) : State := rs.foldl (fun s p => s.writeReg p.1 p.2) State.reset

/-- A state under other parameters. -/
def under (p : Params) (s : State) : State := { s with params := p }

/-- One `Step(rnd = 0xA7)` of an opcode placed at `PC`. -/
def run (w : Word) (s : State) : Result :=
  step ((s.placeOpcode w).setPending [.step 0xA7])

/-- One host event. -/
def host (e : Event) (s : State) : Result := step (s.setPending [e])

/-- What a result shows. -/
def got {α : Type} (r : Result) (f : State → α) : Option α :=
  match r with
  | .next t => some (f t)
  | .fault _ => none
  | .refused _ => none

/-- A register and the flag of a result. -/
def regAndFlag (r : Result) (x : Reg) : Option (Byte × Byte) :=
  got r fun t => (t.readReg x, t.readReg regF)

/-- The outcome and `PC` of a result. -/
def outcome (r : Result) : Option (Reply × Word) := got r fun t => (t.reply, t.pc)

/-- The error report of a result. -/
def raised (kind : ErrorKind) (info pc : Word) : Reply := .error ⟨kind, info, pc⟩

/-! WellFormed. -/

/-- A sprite height that no encoding carries is refused; 15 is the most (R45). -/
theorem test_wellFormed_refuses_tall_sprite :
    (Instr.drw 0 0 16).wf = false ∧ (Instr.drw 0 0 15).wf = true := by decide

/-! Decoding: every constructor by a word of R48's pattern. -/

theorem test_decode_flow :
    decodeWord 0x00E0 = .instr .cls ∧ decodeWord 0x00EE = .instr .ret ∧
    decodeWord 0x1ABC = .instr (.jp 0xABC) ∧ decodeWord 0x2200 = .instr (.call 0x200) ∧
    decodeWord 0x3A0A = .instr (.seImm 0xA 0x0A) ∧ decodeWord 0x4F00 = .instr (.sneImm 0xF 0x00) ∧
    decodeWord 0x5120 = .instr (.seReg 1 2) ∧ decodeWord 0x9120 = .instr (.sneReg 1 2) ∧
    decodeWord 0xB300 = .instr (.jpV0 0x300) := by decide

theorem test_decode_alu :
    decodeWord 0x6A05 = .instr (.ldImm 0xA 0x05) ∧ decodeWord 0x7A05 = .instr (.addImm 0xA 0x05) ∧
    decodeWord 0x8120 = .instr (.ldReg 1 2) ∧ decodeWord 0x8121 = .instr (.orReg 1 2) ∧
    decodeWord 0x8122 = .instr (.andReg 1 2) ∧ decodeWord 0x8123 = .instr (.xorReg 1 2) ∧
    decodeWord 0x8124 = .instr (.addReg 1 2) ∧ decodeWord 0x8125 = .instr (.subReg 1 2) ∧
    decodeWord 0x8126 = .instr (.shr 1 2) ∧ decodeWord 0x8127 = .instr (.subnReg 1 2) ∧
    decodeWord 0x812E = .instr (.shl 1 2) ∧ decodeWord 0xC30F = .instr (.rnd 3 0x0F) := by decide

theorem test_decode_index_display_keys_timers :
    decodeWord 0xA300 = .instr (.ldI 0x300) ∧ decodeWord 0xD125 = .instr (.drw 1 2 5) ∧
    decodeWord 0xE19E = .instr (.skp 1) ∧ decodeWord 0xE1A1 = .instr (.sknp 1) ∧
    decodeWord 0xF107 = .instr (.ldVxDt 1) ∧ decodeWord 0xF115 = .instr (.ldDtVx 1) ∧
    decodeWord 0xF118 = .instr (.ldStVx 1) ∧ decodeWord 0xF11E = .instr (.addI 1) ∧
    decodeWord 0xF129 = .instr (.ldF 1) ∧ decodeWord 0xF133 = .instr (.ldB 1) ∧
    decodeWord 0xF155 = .instr (.ldMemVx 1) ∧ decodeWord 0xF165 = .instr (.ldVxMem 1) := by decide

/-- One word written out bit by bit for each format of R46, `x` and `y` different. -/
theorem test_decode_bit_by_bit :
    decodeWord 0b0001101010111100 = .instr (.jp 0xABC) ∧
    decodeWord 0b0110101000000101 = .instr (.ldImm 10 5) ∧
    decodeWord 0b1000000100100101 = .instr (.subReg 1 2) ∧
    decodeWord 0b1101000100101111 = .instr (.drw 1 2 15) ∧
    decodeWord 0b1110000110011110 = .instr (.skp 1) ∧
    decodeWord 0b1111001001010101 = .instr (.ldMemVx 2) := by decide

/-- The `Unknown` words of 95_test_vectors.md 2.1, each returned as itself. -/
theorem test_decode_unknown :
    [0x00E1, 0x00EF, 0x0000, 0x0123, 0x01E0, 0x5121, 0x512F, 0x8128, 0x8129, 0x812A, 0x812B, 0x812C,
      0x812D, 0x812F, 0x9121, 0xE19F, 0xE1A0, 0xE100, 0xF10A, 0xF100, 0xF175, 0xF185,
      0xF1FF].all (fun w => decodeWord w == .unknown w) = true := by decide

/-- A byte sequence: the high byte comes first, what follows is left, one byte is no opcode (R44). -/
theorem test_decode_bytes :
    decodeBytes [0x12, 0x34, 0x56] = .instr (.jp 0x234) [0x56] ∧
    decodeBytes [0xF1, 0x0A] = .unknown 0xF10A [] ∧
    decodeBytes [0x12] = .truncated [0x12] := by decide

/-- The encoder on R54's examples. -/
theorem test_encode :
    encode (.ldImm 0xA 0x05) = 0x6A05 ∧ encode (.drw 1 2 5) = 0xD125 ∧
    encode (.ldMemVx 3) = 0xF355 ∧ assemble .vx (.shr 1 2) = 0x8106 ∧
    assemble .vy (.shl 1 2) = 0x812E := by decide

/-- The statement forms as the programs of 95_test_vectors.md write them. -/
theorem test_text :
    [Instr.ldImm 0xA 0x05, .drw 1 2 5, .ldVxMem 2, .jp 0x204, .shr 1 2].map Instr.text
      = ["LD VA,0x05", "DRW V1,V2,5", "LD V2,[I]", "JP 0x204", "SHR V1"] := by decide

/-- The opcode table's words for the host. -/
theorem test_decodeTableWord :
    decodeTableWord 16 0x00E0 = some .cls ∧ decodeTableWord 16 0xF065 = some (.ldVxMem 0) ∧
    decodeTableWord 16 0xF00A = none := by decide

/-- A placed word runs as the very next step. -/
theorem test_withFetchWord :
    got (step (State.reset.withFetchWord 16 0x6A05)) (fun t => (t.readReg 0xA, t.pc))
      = some (0x05, 0x202) := by decide

/-! Fetch and Step (95_test_vectors.md 2.2). -/

theorem test_fetch_is_big_endian :
    outcome (host (.step 0) (State.reset.setBytes 0x200 [0x34, 0x12])) = some (.ok, 0x0202) ∧
    outcome (host (.step 0) (State.reset.setBytes 0x200 [0x12, 0x34])) = some (.ok, 0x0234) := by
  decide

theorem test_fetch_bounds :
    outcome (run 0x6001 { State.reset with pc := 0xFFE }) = some (.ok, 0x1000) ∧
    outcome (host (.step 0) { State.reset with pc := 0xFFF })
      = some (raised .addressOutOfRange 0x1000 0xFFF, 0xFFF) ∧
    outcome (host (.step 0) { State.reset with pc := 0x10FE })
      = some (raised .addressOutOfRange 0x10FE 0x10FE, 0x10FE) := by decide

theorem test_fetch_validity :
    outcome (host (.step 0) { State.reset with pc := 0x301 })
      = some (raised .invalidProgramCounter 0x301 0x301, 0x301) ∧
    outcome (host (.step 0) { State.reset with pc := 0x1FE })
      = some (raised .invalidProgramCounter 0x1FE 0x1FE, 0x1FE) ∧
    outcome (host (.step 0) (under { paramsDecided with pcCheck := .boundsOnly }
      ({ State.reset with pc := 0x301 }.setBytes 0x301 [0x60, 0x00]))) = some (.ok, 0x303) := by
  decide

theorem test_unknown_word_raises :
    outcome (step State.reset) = some (raised .illegalInstruction 0x0000 0x202, 0x202) ∧
    outcome (run 0xF10A State.reset) = some (raised .illegalInstruction 0xF10A 0x202, 0x202) := by
  decide

theorem test_perStep_ticks_on_ok_only :
    got (run 0x6000 (under { paramsDecided with timerMode := .perStep }
      { State.reset with dt := 5, st := 1 })) (fun t => (t.dt, t.st)) = some (4, 0) ∧
    got (run 0x0000 (under { paramsDecided with timerMode := .perStep }
      { State.reset with dt := 5 })) (fun t => t.dt) = some 5 ∧
    got (run 0x6000 { State.reset with dt := 5 }) (fun t => t.dt) = some 5 := by decide

/-! Control flow (2.3). -/

theorem test_ret :
    got (run 0x00EE { State.reset with
        pc := 0x300, sp := 1, stack := State.reset.stack.set 0 0x204 })
      (fun t => (t.sp, t.pc)) = some (0, 0x204) ∧
    outcome (run 0x00EE State.reset) = some (raised .stackUnderflow 0x00EE 0x202, 0x202) := by decide

theorem test_jp :
    outcome (run 0x1234 State.reset) = some (.ok, 0x234) ∧
    outcome (run 0x1201 State.reset) = some (.ok, 0x201) := by decide

theorem test_call_pushes :
    got (run 0x2300 { State.reset with pc := 0x202 }) (fun t => (t.stack[0], t.sp, t.pc))
      = some (0x204, 1, 0x300) ∧
    got (run 0x2300 { State.reset with sp := 15 }) (fun t => (t.stack[15], t.sp, t.pc))
      = some (0x202, 16, 0x300) := by decide

theorem test_call_overflows :
    got (run 0x2300 { State.reset with sp := 16 }) (fun t => (t.reply, t.sp, t.stack))
      = some (raised .stackOverflow 0x2300 0x202, 16, State.reset.stack) := by decide

theorem test_seImm :
    outcome (run 0x3A0A (regs [(0xA, 0x0A)])) = some (.ok, 0x204) ∧
    outcome (run 0x3A0A (regs [(0xA, 0x0B)])) = some (.ok, 0x202) := by decide

theorem test_seImm_at_top_of_memory :
    outcome (run 0x3000 { State.reset with pc := 0xFFE }) = some (.ok, 0x1002) := by decide

theorem test_sneImm :
    outcome (run 0x4A0A (regs [(0xA, 0x0A)])) = some (.ok, 0x202) ∧
    outcome (run 0x4A0A (regs [(0xA, 0x0B)])) = some (.ok, 0x204) := by decide

theorem test_seReg :
    outcome (run 0x5120 (regs [(1, 7), (2, 7)])) = some (.ok, 0x204) ∧
    outcome (run 0x5120 (regs [(1, 7), (2, 8)])) = some (.ok, 0x202) := by decide

theorem test_sneReg :
    outcome (run 0x9120 (regs [(1, 7), (2, 8)])) = some (.ok, 0x204) ∧
    outcome (run 0x9120 (regs [(1, 7), (2, 7)])) = some (.ok, 0x202) := by decide

theorem test_jpV0 :
    outcome (run 0xBFFF (regs [(0, 0xFF)])) = some (.ok, 0x10FE) ∧
    outcome (run 0xB300 (regs [(3, 0x10)])) = some (.ok, 0x300) := by decide

/-! ALU (2.4). -/

theorem test_ldImm : regAndFlag (run 0x6F33 State.reset) 0xF = some (0x33, 0x33) := by decide

theorem test_addImm :
    regAndFlag (run 0x7001 (regs [(0, 0xFF)])) 0 = some (0x00, 0) ∧
    regAndFlag (run 0x71FF (regs [(1, 0x05), (0xF, 9)])) 1 = some (0x04, 9) := by decide

theorem test_ldReg : regAndFlag (run 0x8120 (regs [(2, 0x7C)])) 1 = some (0x7C, 0) := by decide

theorem test_orReg :
    regAndFlag (run 0x8121 (regs [(1, 0xF0), (2, 0x0F), (0xF, 1)])) 1 = some (0xFF, 1) := by decide

theorem test_andReg :
    regAndFlag (run 0x8122 (regs [(1, 0xF3), (2, 0x3C)])) 1 = some (0x30, 0) := by decide

theorem test_xorReg :
    regAndFlag (run 0x8123 (regs [(1, 0xFF), (2, 0x0F)])) 1 = some (0xF0, 0) ∧
    regAndFlag (run 0x8113 (regs [(1, 0x5A)])) 1 = some (0x00, 0) := by decide

theorem test_addReg :
    regAndFlag (run 0x8124 (regs [(1, 0xC8), (2, 0x64)])) 1 = some (0x2C, 1) ∧
    regAndFlag (run 0x8124 (regs [(1, 0x80), (2, 0x7F), (0xF, 1)])) 1 = some (0xFF, 0) ∧
    regAndFlag (run 0x81F4 (regs [(1, 0xFF), (0xF, 0x01)])) 1 = some (0x00, 1) := by decide

theorem test_addReg_into_VF :
    regAndFlag (run 0x8F24 (regs [(0xF, 0xFF), (2, 2)])) 0xF = some (1, 1) ∧
    regAndFlag (run 0x8FF4 (regs [(0xF, 0x90)])) 0xF = some (0x20, 0x20) ∧
    regAndFlag (run 0x8FF4 (under { paramsDecided with vfWriteOrder := .resultThenFlag }
      (regs [(0xF, 0x90)]))) 0xF = some (1, 1) := by decide

theorem test_subReg :
    regAndFlag (run 0x8125 (regs [(1, 0x0A), (2, 0x05)])) 1 = some (0x05, 1) ∧
    regAndFlag (run 0x8125 (regs [(1, 0x05), (2, 0x0A)])) 1 = some (0xFB, 0) ∧
    regAndFlag (run 0x8125 (regs [(1, 0x07), (2, 0x07)])) 1 = some (0x00, 1) := by decide

theorem test_subReg_into_VF :
    regAndFlag (run 0x8F25 (regs [(0xF, 0x05), (2, 0x0A)])) 0xF = some (0xFB, 0xFB) ∧
    regAndFlag (run 0x8F25 (under { paramsDecided with vfWriteOrder := .resultThenFlag }
      (regs [(0xF, 0x05), (2, 0x0A)]))) 0xF = some (0, 0) := by decide

theorem test_subnReg :
    regAndFlag (run 0x8127 (regs [(1, 0x0A), (2, 0x05)])) 1 = some (0xFB, 0) ∧
    regAndFlag (run 0x8127 (regs [(1, 0x05), (2, 0x0A)])) 1 = some (0x05, 1) := by decide

theorem test_shr :
    regAndFlag (run 0x8126 (regs [(1, 0x05), (2, 0xF0)])) 1 = some (0x02, 1) ∧
    regAndFlag (run 0x8106 (regs [(1, 0x80)])) 1 = some (0x40, 0) ∧
    regAndFlag (run 0x8F06 (regs [(0xF, 0x03)])) 0xF = some (0x01, 0x01) := by decide

theorem test_shr_from_Vy :
    regAndFlag (run 0x8126 (under { paramsDecided with shiftSource := .vy }
      (regs [(1, 0x05), (2, 0xF0)]))) 1 = some (0x78, 0) := by decide

theorem test_shl :
    regAndFlag (run 0x810E (regs [(1, 0x81)])) 1 = some (0x02, 1) ∧
    regAndFlag (run 0x810E (regs [(1, 0x40)])) 1 = some (0x80, 0) := by decide

theorem test_shl_into_VF :
    regAndFlag (run 0x8F0E (regs [(0xF, 0x81)])) 0xF = some (0x02, 0x02) ∧
    regAndFlag (run 0x8F0E (under { paramsDecided with vfWriteOrder := .resultThenFlag }
      (regs [(0xF, 0x81)]))) 0xF = some (1, 1) := by decide

theorem test_rnd :
    regAndFlag (run 0xC30F State.reset) 3 = some (0x07, 0) ∧
    regAndFlag (run 0xC300 (regs [(3, 9)])) 3 = some (0x00, 0) := by decide

/-! Index and memory (2.5). -/

theorem test_ldI : got (run 0xAFFF State.reset) (fun t => t.index) = some 0x0FFF := by decide

theorem test_addI :
    got (run 0xF21E { regs [(2, 0x01)] with index := 0x0FFF }) (fun t => (t.index, t.readReg regF))
      = some (0x1000, 0) ∧
    got (run 0xF21E { regs [(2, 0x01)] with index := 0xFFFF }) (fun t => t.index)
      = some 0x0000 := by decide

theorem test_ldF :
    got (run 0xF029 (regs [(0, 0x0F)])) (fun t => t.index) = some 0x009B ∧
    got (run 0xF029 (regs [(0, 0xFF)])) (fun t => t.index) = some 0x054B := by decide

theorem test_ldB :
    got (run 0xF033 { regs [(0, 0xC7)] with index := 0x300 }) (fun t => t.bytesAt 0x300 3)
      = some [1, 9, 9] ∧
    got (run 0xF033 { regs [(0, 0x80)] with index := 0xFFD }) (fun t => t.bytesAt 0xFFD 3)
      = some [1, 2, 8] := by decide

theorem test_ldB_out_of_range :
    got (run 0xF033 { regs [(0, 0xFF)] with index := 0xFFE }) (fun t => (t.reply, t.bytesAt 0xFFE 2))
      = some (raised .addressOutOfRange 0x1000 0x202, [0, 0]) := by decide

theorem test_ldMemVx :
    got (run 0xF255 { regs [(0, 1), (1, 2), (2, 3), (3, 4)] with index := 0x400 })
      (fun t => (t.bytesAt 0x400 4, t.index)) = some ([1, 2, 3, 0], 0x400) ∧
    got (run 0xFF55 { regs [(0xF, 0x5A)] with index := 0xFF0 }) (fun t => (t.reply, t.byteAt 0xFFF))
      = some (.ok, 0x5A) := by decide

theorem test_ldMemVx_out_of_range :
    outcome (run 0xFF55 { State.reset with index := 0xFF1 })
      = some (raised .addressOutOfRange 0x1000 0x202, 0x202) ∧
    outcome (run 0xF155 { State.reset with index := 0xFFFF })
      = some (raised .addressOutOfRange 0xFFFF 0x202, 0x202) := by decide

theorem test_ldVxMem :
    got (run 0xF165 { regs [(2, 7)] with index := 0x050 })
      (fun t => (t.readReg 0, t.readReg 1, t.readReg 2, t.index)) = some (0xF0, 0x90, 7, 0x050) := by
  decide

theorem test_ldVxMem_out_of_range :
    got (run 0xF165 { regs [(0, 8)] with index := 0xFFF }) (fun t => (t.reply, t.readReg 0))
      = some (raised .addressOutOfRange 0x1000 0x202, 8) := by decide

/-! Display (2.6). Bit `col` of a row is column `col`. -/

/-- A framebuffer with one row set. -/
def fbRow (row : Fin 32) (bits : BitVec 64) : Framebuffer := (Vector.replicate 32 0).set row bits

theorem test_cls :
    got (run 0x00E0 { regs [(0xF, 1)] with fb := fbRow 31 0xFF }) (fun t => (t.fb, t.readReg regF))
      = some (Vector.replicate 32 0, 1) := by decide

/-- V-DRW-1: the glyph 0 at the top left corner. -/
theorem test_drw_glyph :
    got (run 0xD005 { State.reset with index := 0x050 })
      (fun t => ((t.fb.take 6).toList, t.readReg regF))
      = some ([0xF, 0x9, 0x9, 0x9, 0xF, 0], 0) := by decide

/-- V-DRW-4, V-DRW-6 and V-DRW-14: a collision, a sprite of no rows, coordinates from the old `VF`. -/
theorem test_drw_flag :
    got (run 0xD011 ({ State.reset with index := 0x300, fb := fbRow 0 0x2 }.setBytes 0x300 [0xC0]))
      (fun t => (t.fb[0], t.readReg regF)) = some (0x1, 1) ∧
    got (run 0xD010 { regs [(0xF, 1)] with index := 0xFFFF, fb := fbRow 0 0x2 })
      (fun t => (t.reply, t.fb[0], t.readReg regF)) = some (.ok, 0x2, 0) ∧
    got (run 0xDF01 ({ regs [(0xF, 5), (0, 2)] with index := 0x300 }.setBytes 0x300 [0x80]))
      (fun t => (t.fb[2], t.readReg regF)) = some (0x20, 0) := by decide

/-- V-DRW-8, V-DRW-9 and V-DRW-12: clipping right and below, and the origin taken modulo the screen. -/
theorem test_drw_clips :
    got (run 0xD012 ({ regs [(0, 62), (1, 31)] with index := 0x300 }.setBytes 0x300 [0xFF, 0xFF]))
      (fun t => (t.fb, t.readReg regF)) = some (fbRow 31 0xC000000000000000, 0) ∧
    got (run 0xD012 ({ regs [(0, 126), (1, 63)] with index := 0x300 }.setBytes 0x300 [0xFF, 0xFF]))
      (fun t => t.fb) = some (fbRow 31 0xC000000000000000) ∧
    got (run 0xD013 ({ regs [(0, 10), (1, 30)] with index := 0x300 }.setBytes 0x300
        [0x3C, 0x42, 0xFF]))
      (fun t => (t.fb[30], t.fb[31], t.fb[0])) = some (0xF000, 0x10800, 0) := by decide

/-- V-DRW-13: the range check covers a clipped row's byte. -/
theorem test_drw_out_of_range :
    got (run 0xD013 { regs [(1, 30), (0xF, 3)] with index := 0xFFE })
      (fun t => (t.reply, t.fb, t.readReg regF))
      = some (raised .addressOutOfRange 0x1000 0x202, State.reset.fb, 3) := by decide

/-! Keypad and timers (2.7). -/

/-- The reset state with `V1` set and one key down. -/
def keyed (v1 : Byte) (k : Fin 16) : State := (regs [(1, v1)]).onSetKey k true

theorem test_skp :
    outcome (run 0xE19E (keyed 5 5)) = some (.ok, 0x204) ∧
    outcome (run 0xE19E (keyed 5 4)) = some (.ok, 0x202) ∧
    outcome (run 0xE19E (keyed 0x10 0))
      = some (raised .keyIndexOutOfRange 0x10 0x202, 0x202) := by decide

theorem test_sknp :
    outcome (run 0xE1A1 (keyed 5 4)) = some (.ok, 0x204) ∧
    outcome (run 0xE1A1 (keyed 5 5)) = some (.ok, 0x202) ∧
    outcome (run 0xE1A1 (under { paramsDecided with keyIndexPolicy := .maskLow4 } (keyed 0xFF 15)))
      = some (.ok, 0x202) := by decide

theorem test_ldVxDt :
    got (run 0xF307 { State.reset with dt := 0x2A }) (fun t => (t.readReg 3, t.dt))
      = some (0x2A, 0x2A) := by decide

theorem test_ldDtVx :
    got (run 0xF315 (regs [(3, 0x3C)])) (fun t => t.dt) = some 0x3C ∧
    got (run 0xF315 (under { paramsDecided with timerMode := .perStep } (regs [(3, 0x3C)])))
      (fun t => t.dt) = some 0x3B := by decide

theorem test_ldStVx :
    got (run 0xF418 (regs [(4, 0x02)])) (fun t => (t.st, t.dt)) = some (2, 0) := by decide

theorem test_tick :
    got (host .tick { State.reset with dt := 1, st := 255 }) (fun t => (t.dt, t.st))
      = some (0, 254) ∧
    got (host .tick { State.reset with dt := 0, st := 0 }) (fun t => (t.dt, t.st))
      = some (0, 0) := by decide

theorem test_setKey :
    got (host (.setKey 7 true) State.reset) (fun t => (t.key[7], t.key[6])) = some (true, false) := by
  decide

/-! Reset, load and the read-only events (2.8). -/

theorem test_reset :
    got (host .reset ({ regs [(3, 9)] with dt := 4, sp := 2 }.setBytes 0x050 [1, 2]))
      (fun t => (t.bytesAt 0x04F 2, t.bytesAt 0x09F 2, t.readReg 3, t.dt, t.sp, t.pc))
      = some ([0, 0xF0], [0x80, 0], 0, 0, 0, 0x200) := by decide

/-- V-LOAD-5: a shorter image leaves the old tail. -/
theorem test_load :
    got (host (.loadProgram [0x12, 0x00]) (State.reset.setBytes 0x200 [0x6A, 0x05, 0x7A, 0x05]))
      (fun t => (t.bytesAt 0x200 5, t.pc)) = some ([0x12, 0x00, 0x7A, 0x05, 0], 0x200) := by decide

theorem test_readByte :
    got (host (.readByte 0x82) State.reset) (fun t => t.reply) = some (.byte 0xF0) ∧
    outcome (host (.readByte 4096) State.reset)
      = some (raised .addressOutOfRange 0x1000 0x200, 0x200) := by decide

theorem test_ports :
    got (run 0xF10A State.reset) (fun t => (t.errKindPort, t.errInfoPort, t.errPcPort, t.ldErrPort))
      = some (1, 0xF10A, 0x202, false) := by decide

/-! The end of a run (R136). -/

/-- `JP 0x200` at 0x200 is a self-jump and ends the run there; at reset nothing has ended, and the Step
that raises IllegalInstruction ends it. `JP 0x201` at 0x201 cannot be fetched, so it raises. -/
theorem test_run_over :
    RunOver (State.reset.placeOpcode 0x1200) ∧ ¬ RunOver State.reset ∧
    ¬ RunOver (State.reset.placeOpcode 0x1202) ∧ got (step State.reset) State.erred = some true ∧
    ¬ AtSelfJump { State.reset.setBytes 0x201 [0x12, 0x01] with pc := 0x201 } := by
  unfold RunOver AtSelfJump FetchOk; decide

/-! Witnesses: for each statement of Certificates/Slice0/Obligations.lean with hypotheses, a state and
operands that meet them together, one for each clause, at boundary values. -/

/-- The parameters with `PerStep`. -/
def perStepParams : Params := { paramsDecided with timerMode := .perStep }

/-- The parameters with `BoundsOnly`. -/
def boundsParams : Params := { paramsDecided with pcCheck := .boundsOnly }

theorem test_witness_DecodeOfEncodedBytesGivesTheInstruction :
    (Instr.drw 15 15 15).wf = true ∧ (Instr.drw 0 0 0).wf = true ∧ Instr.cls.wf = true := by decide

theorem test_witness_EncodeOfDecodedWordGivesTheWord :
    decodeWord 0xFFFF = .unknown 0xFFFF ∧ decodeWord 0xFF65 = .instr (.ldVxMem 15) := by decide

theorem test_witness_AssemblerZeroesTheIgnoredShiftField :
    decodeWord 0x8AF6 = .instr (.shr 10 15) ∧ decodeWord 0x8AFE = .instr (.shl 10 15) ∧
    decodeWord 0x8AF4 = .instr (.addReg 10 15) := by decide

theorem test_witness_DecoderAgreesWithOpcodeMap :
    (∃ r ∈ opcodeRows, r.selects 0x00E0 = true) ∧ decodeWord 0xFF65 = .instr (.ldVxMem 15) ∧
    ∀ r ∈ opcodeRows, r.selects 0xF10A = false := by decide

/-- `LD V0,1` as the last opcode of memory, about to be fetched. -/
def atTop : State := { State.reset.setBytes 0xFFE [0x60, 0x01] with pc := 0xFFE }

theorem test_witness_StepRunsTheDecodedInstruction :
    (FetchOk atTop ∧ atTop.pending = [] ∧
      decodeBytes [atTop.byteAt atTop.pc.toNat, atTop.byteAt (atTop.pc.toNat + 1)]
        = .instr (.ldImm 0 1) []) ∧
    FetchOk (atTop.setPending [.step 7]) ∧ (atTop.setPending [.step 7]).pending = .step 7 :: [] := by
  unfold FetchOk; decide

theorem test_witness_CompletedStepTicksOnlyPerStep :
    ((under perStepParams State.reset).params.timerMode = .perStep ∧
      (under perStepParams State.reset).reply = .ok) ∧
    State.reset.params.timerMode = .external ∧
    (State.reset.raise .illegalInstruction 0).erred = true := by decide

theorem test_witness_UnknownWordRaisesIllegalInstruction :
    FetchOk State.reset ∧ decodeBytes [State.reset.byteAt State.reset.pc.toNat,
      State.reset.byteAt (State.reset.pc.toNat + 1)] = .unknown 0 [] := by
  unfold FetchOk; decide

theorem test_witness_RefusedFetchChangesNothing :
    0xFFE < ({ State.reset with pc := 0xFFF } : State).pc.toNat ∧
    (({ State.reset with pc := 0x1FE } : State).pc.toNat ≤ 0xFFE ∧
      ({ State.reset with pc := 0x1FE } : State).params.pcCheck = .strict ∧
      ({ State.reset with pc := 0x1FE } : State).pc.toNat < 0x200) ∧
    (({ State.reset with pc := 0xFFD } : State).pc.toNat ≤ 0xFFE ∧
      ({ State.reset with pc := 0xFFD } : State).pc.toNat % 2 = 1) ∧
    ((under boundsParams { State.reset with pc := 0xFFF }).params.pcCheck = .boundsOnly ∧
      got (stepEvent 0 (under boundsParams { State.reset with pc := 0xFFF })) (fun t => t.reply)
        = some (raised .addressOutOfRange 0x1000 0xFFF)) := by decide

theorem test_witness_RaisedErrorLeavesOnlyTheProgramCounter :
    got (stepEvent 0 State.reset) (fun t => t.reply) = some (raised .illegalInstruction 0 0x202) ∧
    got (stepEvent 0 { State.reset with pc := 0xFFF }) (fun t => t.reply)
      = some (raised .addressOutOfRange 0x1000 0xFFF) := by decide

/-- A state whose memory lists a cell, and which steps. -/
theorem test_witness_StepKeepsMemoryCanonical :
    MemoryCanonical (State.reset.setBytes 0xFFE [0x60, 0x01]) ∧
    (State.reset.setBytes 0xFFE [0x60, 0x01]).mem ≠ [] ∧
    got (step (State.reset.setBytes 0xFFE [0x60, 0x01])) (fun t => t.mem.length) = some 2 := by
  unfold MemoryCanonical; decide

theorem test_witness_StepKeepsProgramCounterBounds :
    PcBounds { State.reset with pc := 0x10FE, stack := State.reset.stack.set 0 0x1000 } ∧
    got (step { State.reset with pc := 0x10FE, stack := State.reset.stack.set 0 0x1000 })
      (fun t => t.pc) = some 0x10FE := by
  unfold PcBounds; decide

theorem test_witness_NoEventChangesTheParameters :
    got (step (under boundsParams State.reset)) (fun t => t.params) = some boundsParams := by decide

/-- Each item of the three statements about writers does change under some instruction. -/
theorem test_witness_writers :
    got (exec (.ldI 1) State.reset) (fun t => t.index) = some 1 ∧
    got (exec (.jp 1) State.reset) (fun t => t.pc) = some 1 ∧
    got (exec (.call 1) State.reset) (fun t => (t.stack[0], t.sp)) = some (0x200, 1) ∧
    got (exec (.ldDtVx 0) (regs [(0, 1)])) (fun t => t.dt) = some 1 ∧
    got (exec (.ldStVx 0) (regs [(0, 1)])) (fun t => t.st) = some 1 ∧
    got (exec (.ldB 0) { regs [(0, 1)] with index := 0x300 }) (fun t => t.byteAt 0x302) = some 1 ∧
    got (exec .cls { State.reset with fb := fbRow 0 1 }) (fun t => t.fb[0]) = some 0 ∧
    got (exec (.ldReg 15 0) (regs [(0, 1)])) (fun t => t.readReg regF) = some 1 := by decide

/-- Both sides of the SoundTimer statement's case distinction are met. -/
theorem test_witness_SoundTimerIsReadByNoInstruction :
    (∃ x, Instr.ldStVx 15 = .ldStVx x) ∧ ∀ x, Instr.cls ≠ .ldStVx x := by decide

theorem test_witness_DelayTimerRisesOnlyByItsLoad :
    got (run 0xF015 (regs [(0, 1)])) (fun t => t.dt) = some 1 ∧
    ((regs [(0, 1)]).placeOpcode 0xF015).dt = 0 := by decide

theorem test_witness_KeysChangeOnlyByTheHost :
    got (host (.setKey 0 true) State.reset) (fun t => t.key[0]) = some true ∧
    got (host .reset (keyed 0 15)) (fun t => t.key[15]) = some false := by decide

/-- The clauses of the flag-writing statements: `x` other than 15, and `x = 15` in either order. -/
theorem test_witness_flagged_writes :
    (14 : Reg) ≠ regF ∧ State.reset.params.vfWriteOrder = .flagThenResult ∧
    (under { paramsDecided with vfWriteOrder := .resultThenFlag } State.reset).params.vfWriteOrder
      = .resultThenFlag := by decide

theorem test_witness_ShiftsGiveHalfAndDoubleAndTheLostBit :
    State.reset.params.shiftSource = .vx ∧
    (under { paramsDecided with shiftSource := .vy } State.reset).params.shiftSource = .vy := by
  decide

theorem test_witness_FlagMakesSumsAndDifferencesExact :
    (1 : Reg) ≠ regF ∧
    regAndFlag (exec (.addReg 1 2) (regs [(1, 0xFF), (2, 0xFF)])) 1 = some (0xFE, 1) ∧
    regAndFlag (exec (.subReg 1 2) (regs [(1, 0x00), (2, 0x01)])) 1 = some (0xFF, 0) := by decide

theorem test_witness_JumpAcceptsEveryTarget :
    (0xFFF : Addr12).toNat = 0xFFF ∧
    ((0x1FE : Addr12).toNat ≠ 0xFFF ∧ State.reset.params.pcCheck = .strict ∧
      (0x1FE : Addr12).toNat < 0x200) ∧
    ((0xFFD : Addr12).toNat ≠ 0xFFF ∧ (0xFFD : Addr12).toNat % 2 = 1) := by decide

theorem test_witness_CallPushesReturnAddressOrOverflows :
    ({ State.reset with sp := 15 } : State).sp.val < 16 ∧
    ({ State.reset with sp := 16 } : State).sp.val = 16 := by decide

theorem test_witness_ReturnPopsOrUnderflows :
    (({ State.reset with sp := 16 } : State).sp.val ≠ 0 ∧
      (15 : Fin 16).val + 1 = ({ State.reset with sp := 16 } : State).sp.val) ∧
    State.reset.sp.val = 0 := by decide

/-- The state CALL leaves is one from which RET comes back. -/
theorem test_witness_CallThenReturnRestoresPcAndDepth :
    ({ State.reset with sp := 15 } : State).sp.val < 16 ∧
    got (exec (.call 0x300) { State.reset with sp := 15 }) (fun t => (t.sp, t.stack[15]))
      = some (16, 0x200) := by decide

theorem test_witness_KeySkipsFollowTheSelectedKey :
    ((15 : Fin 16).val = ((regs [(1, 15)]).readReg 1).toNat % 16 ∧
      ((regs [(1, 15)]).readReg 1).toNat ≤ 15) ∧
    ((15 : Fin 16).val = ((regs [(1, 0xFF)]).readReg 1).toNat % 16 ∧
      (under { paramsDecided with keyIndexPolicy := .maskLow4 } (regs [(1, 0xFF)])).params.keyIndexPolicy
        ≠ .fault) := by decide

theorem test_witness_KeyNumberAboveFifteenRaises :
    (regs [(1, 16)]).params.keyIndexPolicy = .fault ∧ 15 < ((regs [(1, 16)]).readReg 1).toNat := by
  decide

theorem test_witness_TimerLoadsCopyOneValue :
    (under perStepParams State.reset).params.timerMode = .perStep ∧
    (under perStepParams State.reset).reply = .ok := by decide

theorem test_witness_TickCountsEachTimerDownToZero :
    ({ State.reset with dt := 1, st := 255 } : State).dt.toNat > 0 ∧
    ({ State.reset with dt := 1, st := 255 } : State).st.toNat > 0 ∧
    State.reset.dt = 0 ∧ State.reset.st = 0 := by decide

theorem test_witness_PerStepIsExternalThenTick :
    (under perStepParams State.reset).params.timerMode = .perStep := by decide

theorem test_witness_DecimalStoreWritesThreeDigits :
    MemoryCanonical { State.reset with index := 0xFFD } ∧
    ({ State.reset with index := 0xFFD } : State).effAddr 2 < 4096 := by
  unfold MemoryCanonical; decide

theorem test_witness_block_transfers :
    MemoryCanonical { State.reset with index := 0xFF0 } ∧
    ({ State.reset with index := 0xFF0 } : State).effAddr (15 : Reg).val < 4096 ∧
    (15 : Reg) ≤ 15 ∧ (14 : Reg) < 15 := by
  unfold MemoryCanonical; decide

theorem test_witness_RangePastMemoryRaisesAndWritesNothing :
    4096 ≤ ({ State.reset with index := 0xFFE } : State).effAddr 2 ∧
    4096 ≤ ({ State.reset with index := 0xFF1 } : State).effAddr (15 : Reg).val ∧
    0 < 15 ∧ 4096 ≤ ({ State.reset with index := 0xFF2 } : State).effAddr (15 - 1) := by decide

/-- LD [I],VF that overwrites the last opcode of memory with `VE` and `VF`. -/
theorem test_witness_StoredOpcodeIsFetchedNext :
    MemoryCanonical { State.reset with index := 0xFF0, pc := 0xFFE } ∧
    ({ State.reset with index := 0xFF0, pc := 0xFFE } : State).effAddr (15 : Reg).val < 4096 ∧
    (15 : Reg).val = (14 : Reg).val + 1 ∧ (15 : Reg) ≤ 15 ∧
    ({ State.reset with index := 0xFF0, pc := 0xFFE } : State).pc.toNat
      = ({ State.reset with index := 0xFF0, pc := 0xFFE } : State).effAddr (14 : Reg).val := by
  unfold MemoryCanonical; decide

/-- A sprite that ends at the top of memory, one of no rows with `I` outside it, and for the statements
about the collision flag a cell that goes from 1 to 0. -/
theorem test_witness_DrawXorsTheClippedSprite :
    HandlerOk (.drw 0 1 15) { State.reset with index := 0xFF1 } ∧
    HandlerOk (.drw 0 1 0) { State.reset with index := 0xFFFF } ∧
    Framebuffer.pixel (fbRow 0 1) 0 0 = true ∧
    got (exec (.drw 0 1 1) { State.reset with index := 0x050, fb := fbRow 0 1 })
      (fun t => (Framebuffer.pixel t.fb 0 0, t.readReg regF)) = some (false, 1) := by
  unfold HandlerOk; decide

theorem test_witness_DrawingTwiceRestoresTheFramebuffer :
    HandlerOk (.drw 0 1 5) { State.reset with index := 0x050 } ∧
    got (exec (.drw 0 1 5) { State.reset with index := 0x050 }) (fun t => (t.readReg 0, t.readReg 1))
      = some (State.reset.readReg 0, State.reset.readReg 1) := by
  unfold HandlerOk; decide

theorem test_witness_SpriteStaysInItsBox :
    HandlerOk (.drw 0 1 5) { regs [(0, 8), (1, 8)] with index := 0x050 } ∧
    got (exec (.drw 0 1 5) { regs [(0, 8), (1, 8)] with index := 0x050 })
      (fun t => (t.fb[7], t.fb[8], t.fb[13])) = some (0, 0xF00, 0) := by
  unfold HandlerOk; decide

theorem test_witness_ResetEventRestoresEveryItem :
    (State.reset.setPending [.reset, .tick]).pending = .reset :: [.tick] := by decide

theorem test_witness_LoadProgramCopiesWholeImageOrNothing :
    ((State.reset.setPending [.loadProgram (List.replicate 3584 1)]).pending
      = .loadProgram (List.replicate 3584 1) :: [] ∧ MemoryCanonical State.reset ∧
      (List.replicate 3584 (1 : Byte)).length ≤ 3584) ∧
    ((State.reset.setPending [.loadProgram (List.replicate 3585 1)]).pending
      = .loadProgram (List.replicate 3585 1) :: [] ∧
      3584 < (List.replicate 3585 (1 : Byte)).length) :=
  ⟨⟨rfl, rfl, by rw [List.length_replicate]⟩, rfl, by rw [List.length_replicate]; decide⟩

theorem test_witness_SetKeyChangesOneKey :
    (State.reset.setPending [.setKey 15 true]).pending = .setKey 15 true :: [] := by decide

theorem test_witness_HostTickCountsDown :
    (State.reset.setPending [.tick]).pending = .tick :: [] ∧
    State.reset.params.timerMode = .external := by decide

theorem test_witness_ReadOnlyEventsAnswerAndChangeNothing :
    (State.reset.setPending [.snapshotVideo]).pending = .snapshotVideo :: [] ∧
    (State.reset.setPending [.readDelayTimer]).pending = .readDelayTimer :: [] ∧
    (State.reset.setPending [.readSoundTimer]).pending = .readSoundTimer :: [] ∧
    (State.reset.setPending [.keyState 15]).pending = .keyState 15 :: [] ∧
    ((State.reset.setPending [.readByte 4095]).pending = .readByte 4095 :: [] ∧ 4095 < 4096) ∧
    ((State.reset.setPending [.readByte 4096]).pending = .readByte 4096 :: [] ∧ 4096 ≤ 4096) := by
  decide

end Sys2Proof.Tests
end

section
/-! The implementation parameters (spec/00_scope.md R8) under each operation and each instruction. -/

namespace Sys2Proof.Machine

variable {s t u : State}

/-- Of a handler's two ways to end, the raise keeps the parameters by itself; only the writes after
a passed check are left to show. -/
theorem conclude_params {α : Type} {c : Checked α} {f : α → State}
    (hf : ∀ a, c = .ok a → (f a).params = s.params) (h : conclude c s f = .next t) :
    t.params = s.params := by
  rcases conclude_cases h with ⟨a, hc, rfl⟩ | ⟨kind, info, -, rfl⟩
  · exact hf a hc
  · exact s.raise_params kind info

theorem next_params (hu : u.params = s.params) (h : (.next u : Result) = .next t) :
    t.params = s.params :=
  Host.Outcome.next.inj h ▸ hu

theorem State.push_params {a info : Word} (h : s.push a info = .ok u) : u.params = s.params := by
  by_cases hsp : s.sp.val < 16
  · rw [s.push_ok a info hsp] at h
    exact Checked.ok.inj h ▸ rfl
  · rw [s.push_full a info hsp] at h
    cases h

theorem State.pop_params {info : Word} {r : Word × State} (h : s.pop info = .ok r) :
    r.2.params = s.params := by
  by_cases hsp : s.sp.val = 0
  · rw [s.pop_empty info hsp] at h
    cases h
  · rw [s.pop_ok info hsp] at h
    exact Checked.ok.inj h ▸ rfl

@[simp] theorem State.onReset_params (s : State) : s.onReset.params = s.params := rfl

/-- No instruction changes the parameters. -/
theorem exec_params {i : Instr} (h : exec i s = .next t) : t.params = s.params := by
  cases i with
  | cls => exact next_params (s.setFb_params _) h
  | ret => exact conclude_params (fun _ hc => (State.setPc_params _ _).trans (State.pop_params hc)) h
  | call => exact conclude_params (fun _ hc => (State.setPc_params _ _).trans (State.push_params hc)) h
  | jp | jpV0 => exact next_params (s.setPc_params _) h
  | seImm | sneImm | seReg | sneReg => exact next_params (s.skipIf_params _) h
  | ldImm | addImm | ldReg | orReg | andReg | xorReg | rnd | ldVxDt =>
    exact next_params (s.writeReg_params _ _) h
  | addReg | subReg | shr | subnReg | shl => exact next_params (s.writeFlagged_params _ _ _) h
  | ldI | addI | ldF => exact next_params (s.setIndex_params _) h
  | ldDtVx => exact next_params (s.setDt_params _) h
  | ldStVx => exact next_params (s.setSt_params _) h
  | drw => exact conclude_params (fun _ _ => (State.writeReg_params _ _ _).trans (s.setFb_params _)) h
  | skp | sknp => exact conclude_params (fun _ _ => s.skipIf_params _) h
  | ldB | ldMemVx => exact conclude_params (fun _ _ => s.setBytes_params _ _) h
  | ldVxMem => exact conclude_params (fun _ _ => s.setV_params _) h

/-- Settles O17: `step_invariant` for "the parameters are those of the first state". Instructions keep
them by `exec_params`, `Reset` since it resets to the parameters in force (R128). -/
theorem noEventChangesTheParameters : Obligations.NoEventChangesTheParameters := by
  unfold Obligations.NoEventChangesTheParameters
  intro s t ht
  refine step_invariant (P := fun u => u.params = s.params) ?same ?fetched ?ran ?reset ?loaded rfl ht
  case same => exact fun _ _ _ hparams _ _ hP => hparams.trans hP
  case fetched => exact fun _ _ hP => hP
  case ran => exact fun _ _ _ _ hP hexec => (exec_params hexec).trans hP
  case reset => exact fun u hP => u.onReset_params.trans hP
  case loaded => exact fun u bytes hP _ => (u.setBytes_params _ bytes).trans hP

end Sys2Proof.Machine
end

section
/-! Which items of the state (spec/10_state.md R13) each instruction may write, and what is left of
them by any instruction. -/

namespace Sys2Proof.Machine

variable {l : List Item} {i : Instr} {s t u : State}

/-! `Keeps`, one item at a time. -/

theorem Keeps.byteAt (h : Keeps l s t) (hl : .mem ∉ l) (a : Nat) : t.byteAt a = s.byteAt a :=
  h.2.1 hl a

theorem Keeps.readReg (h : Keeps l s t) (hl : .regs ∉ l) (r : Reg) : t.readReg r = s.readReg r :=
  h.2.2.1 hl r

theorem Keeps.index (h : Keeps l s t) (hl : .index ∉ l) : t.index = s.index := h.2.2.2.1 hl

theorem Keeps.pc (h : Keeps l s t) (hl : .pc ∉ l) : t.pc = s.pc := h.2.2.2.2.1 hl

theorem Keeps.stack (h : Keeps l s t) (hl : .stack ∉ l) : t.stack = s.stack := h.2.2.2.2.2.1 hl

theorem Keeps.sp (h : Keeps l s t) (hl : .sp ∉ l) : t.sp = s.sp := h.2.2.2.2.2.2.1 hl

theorem Keeps.dt (h : Keeps l s t) (hl : .dt ∉ l) : t.dt = s.dt := h.2.2.2.2.2.2.2.1 hl

theorem Keeps.st (h : Keeps l s t) (hl : .st ∉ l) : t.st = s.st := h.2.2.2.2.2.2.2.2.1 hl

theorem Keeps.fb (h : Keeps l s t) (hl : .fb ∉ l) : t.fb = s.fb := h.2.2.2.2.2.2.2.2.2.1 hl

theorem Keeps.key (h : Keeps l s t) (hl : .key ∉ l) : t.key = s.key := h.2.2.2.2.2.2.2.2.2.2.1 hl

/-- The items an instruction may write; `reply` where its one check may raise. -/
def itemsWritten : Instr → List Item
  | .cls => [.fb]
  | .ret => [.pc, .sp, .reply]
  | .call _ => [.pc, .stack, .sp, .reply]
  | .jp _ | .jpV0 _ | .seImm _ _ | .sneImm _ _ | .seReg _ _ | .sneReg _ _ => [.pc]
  | .ldImm _ _ | .addImm _ _ | .ldReg _ _ | .orReg _ _ | .andReg _ _ | .xorReg _ _ | .addReg _ _
  | .subReg _ _ | .shr _ _ | .subnReg _ _ | .shl _ _ | .rnd _ _ | .ldVxDt _ => [.regs]
  | .ldI _ | .addI _ | .ldF _ => [.index]
  | .drw _ _ _ => [.fb, .regs, .reply]
  | .skp _ | .sknp _ => [.pc, .reply]
  | .ldDtVx _ => [.dt]
  | .ldStVx _ => [.st]
  | .ldB _ | .ldMemVx _ => [.mem, .reply]
  | .ldVxMem _ => [.regs, .reply]

theorem raise_keeps (kind : ErrorKind) (info : Word) (hl : .reply ∈ l) :
    Keeps l s (s.raise kind info) := by
  simp [Keeps, hl, State.byteAt, State.readReg]

/-- Of a handler's two ways to end, the raise writes `reply` alone; only the writes after a passed
check are left to show. -/
theorem conclude_keeps {α : Type} {c : Checked α} {f : α → State} (hl : .reply ∈ l)
    (hf : ∀ a, c = .ok a → Keeps l s (f a)) (h : conclude c s f = .next t) : Keeps l s t := by
  rcases conclude_cases h with ⟨a, hc, rfl⟩ | ⟨kind, info, -, rfl⟩
  · exact hf a hc
  · exact raise_keeps kind info hl

theorem next_keeps (hu : Keeps l s u) (h : (.next u : Result) = .next t) : Keeps l s t :=
  Host.Outcome.next.inj h ▸ hu

/-- A pop that succeeds answers some cell and moves `SP` alone. -/
theorem State.pop_eq_ok {info : Word} {r : Word × State} (h : s.pop info = .ok r) :
    ∃ (k : Fin 16) (d : Fin 17), r = (s.stack[k], s.setSp d) := by
  by_cases hsp : s.sp.val = 0
  · simp [s.pop_empty info hsp] at h
  · rw [s.pop_ok info hsp] at h
    exact ⟨⟨s.sp.val - 1, by omega⟩, _, (Checked.ok.inj h).symm⟩

/-- A push that succeeds writes one cell and moves `SP`. -/
theorem State.push_eq_ok {a info : Word} (h : s.push a info = .ok u) :
    ∃ (k : Fin 16) (d : Fin 17), u = (s.setStack (s.stack.set k a)).setSp d := by
  by_cases hsp : s.sp.val < 16
  · rw [s.push_ok a info hsp] at h
    exact ⟨⟨s.sp.val, hsp⟩, _, (Checked.ok.inj h).symm⟩
  · simp [s.push_full a info hsp] at h

/-- An instruction writes no item but its own. -/
theorem exec_keeps (h : exec i s = .next t) : Keeps (itemsWritten i) s t := by
  cases i with
  | ret =>
    refine conclude_keeps (by simp [itemsWritten]) (fun r hc => ?_) h
    obtain ⟨k, d, rfl⟩ := State.pop_eq_ok hc
    simp [Keeps, itemsWritten]
  | call nnn =>
    refine conclude_keeps (by simp [itemsWritten]) (fun u hc => ?_) h
    obtain ⟨k, d, rfl⟩ := State.push_eq_ok hc
    simp [Keeps, itemsWritten]
  | drw | skp | sknp | ldB | ldMemVx | ldVxMem =>
    exact conclude_keeps (by simp [itemsWritten]) (fun a _ => by simp [Keeps, itemsWritten]) h
  | _ => exact next_keeps (by simp [Keeps, itemsWritten]) h

/-! Which instructions an item in the table names. -/

theorem index_writers (h : .index ∈ itemsWritten i) :
    (∃ nnn, i = .ldI nnn) ∨ (∃ x, i = .addI x) ∨ ∃ x, i = .ldF x := by
  cases i <;> simp [itemsWritten] at h ⊢

theorem pc_writers (h : .pc ∈ itemsWritten i) :
    i = .ret ∨ (∃ nnn, i = .jp nnn ∨ i = .call nnn ∨ i = .jpV0 nnn) ∨
      (∃ x kk, i = .seImm x kk ∨ i = .sneImm x kk) ∨ (∃ x y, i = .seReg x y ∨ i = .sneReg x y) ∨
      ∃ x, i = .skp x ∨ i = .sknp x := by
  cases i <;> simp [itemsWritten] at h ⊢

theorem stack_writers (h : .stack ∈ itemsWritten i) : ∃ nnn, i = .call nnn := by
  cases i <;> simp [itemsWritten] at h ⊢

theorem sp_writers (h : .sp ∈ itemsWritten i) : i = .ret ∨ ∃ nnn, i = .call nnn := by
  cases i <;> simp [itemsWritten] at h ⊢

theorem dt_writers (h : .dt ∈ itemsWritten i) : ∃ x, i = .ldDtVx x := by
  cases i <;> simp [itemsWritten] at h ⊢

theorem st_writers (h : .st ∈ itemsWritten i) : ∃ x, i = .ldStVx x := by
  cases i <;> simp [itemsWritten] at h ⊢

theorem mem_writers (h : .mem ∈ itemsWritten i) : ∃ x, i = .ldB x ∨ i = .ldMemVx x := by
  cases i <;> simp [itemsWritten] at h ⊢

theorem fb_writers (h : .fb ∈ itemsWritten i) : i = .cls ∨ ∃ x y n, i = .drw x y n := by
  cases i <;> simp [itemsWritten] at h ⊢

theorem key_not_mem_itemsWritten (i : Instr) : .key ∉ itemsWritten i := by
  cases i <;> simp [itemsWritten]

/-- Settles O18: an item that changed is in `itemsWritten i` by the frame `exec_keeps`, and the table
names the instruction. -/
theorem specialRegistersHaveOnlyTheirWriters :
    Obligations.SpecialRegistersHaveOnlyTheirWriters := by
  unfold Obligations.SpecialRegistersHaveOnlyTheirWriters
  intro i s t h
  have hk := exec_keeps h
  exact ⟨fun hne => index_writers (not_imp_comm.1 hk.index hne),
    fun hne => pc_writers (not_imp_comm.1 hk.pc hne),
    fun hne => stack_writers (not_imp_comm.1 hk.stack hne),
    fun hne => sp_writers (not_imp_comm.1 hk.sp hne),
    fun hne => dt_writers (not_imp_comm.1 hk.dt hne),
    fun hne => st_writers (not_imp_comm.1 hk.st hne),
    hk.key (key_not_mem_itemsWritten i)⟩

/-- Settles O19: the frame `exec_keeps` and the table, for memory byte by byte and for the framebuffer. -/
theorem memoryAndFramebufferHaveOnlyTheirWriters :
    Obligations.MemoryAndFramebufferHaveOnlyTheirWriters := by
  unfold Obligations.MemoryAndFramebufferHaveOnlyTheirWriters
  intro i s t h
  have hk := exec_keeps h
  exact ⟨fun ⟨a, hne⟩ => mem_writers (not_imp_comm.1 (fun hl => hk.byteAt hl a) hne),
    fun hne => fb_writers (not_imp_comm.1 hk.fb hne)⟩

end Sys2Proof.Machine
end

section
/-! The bounds of `PC` and of the return addresses (10_state.md R17, 41_flow.md R66). -/

namespace Sys2Proof.Machine

variable {i : Instr} {s t : State}

/-- A skip steps over one instruction or none. -/
theorem State.skipIf_pc_cases (s : State) (c : Bool) :
    (s.skipIf c).pc = s.pc ∨ (s.skipIf c).pc = s.pc + 2 := by
  cases c
  · exact .inl rfl
  · exact .inr rfl

/-- Where one instruction can send the control: on, over one instruction, to a return address, or to
one of the two immediate forms of target. -/
theorem exec_pc_cases (h : exec i s = .next t) :
    t.pc = s.pc ∨ t.pc = s.pc + 2 ∨ (∃ k : Fin 16, t.pc = s.stack[k]) ∨
      (∃ nnn, t.pc = zextNnn nnn) ∨ ∃ nnn b, t.pc = zextNnn nnn + zextByte b := by
  cases i with
  | ret =>
    rcases conclude_cases h with ⟨r, hc, rfl⟩ | ⟨kind, info, -, rfl⟩
    · obtain ⟨k, d, rfl⟩ := State.pop_eq_ok hc
      exact .inr (.inr (.inl ⟨k, rfl⟩))
    · exact .inl rfl
  | call nnn =>
    rcases conclude_cases h with ⟨u, -, rfl⟩ | ⟨kind, info, -, rfl⟩
    · exact .inr (.inr (.inr (.inl ⟨nnn, rfl⟩)))
    · exact .inl rfl
  | jp nnn =>
    obtain rfl := Host.Outcome.next.inj h
    exact .inr (.inr (.inr (.inl ⟨nnn, rfl⟩)))
  | jpV0 nnn =>
    obtain rfl := Host.Outcome.next.inj h
    exact .inr (.inr (.inr (.inr ⟨nnn, _, rfl⟩)))
  | seImm | sneImm | seReg | sneReg =>
    obtain rfl := Host.Outcome.next.inj h
    exact (s.skipIf_pc_cases _).imp_right .inl
  | skp | sknp =>
    rcases conclude_cases h with ⟨b, -, rfl⟩ | ⟨kind, info, -, rfl⟩
    · exact (s.skipIf_pc_cases _).imp_right .inl
    · exact .inl rfl
  | _ => exact .inl ((exec_keeps h).pc (by simp [itemsWritten]))

/-- The only value an instruction puts on the stack is `PC`. -/
theorem exec_stack_cases (h : exec i s = .next t) (k : Fin 16) :
    t.stack[k] = s.stack[k] ∨ t.stack[k] = s.pc := by
  by_cases hi : .stack ∈ itemsWritten i
  · obtain ⟨nnn, rfl⟩ := stack_writers hi
    rcases conclude_cases h with ⟨u, hc, rfl⟩ | ⟨kind, info, -, rfl⟩
    · obtain ⟨j, d, rfl⟩ := State.push_eq_ok hc
      by_cases hjk : j.val = k.val <;> simp [hjk]
    · exact .inl rfl
  · rw [(exec_keeps h).stack hi]
    exact .inl rfl

theorem toNat_add_two {a : Word} (h : a.toNat ≤ 0x1000) : (a + 2).toNat = a.toNat + 2 := by
  bv_omega

theorem toNat_zextNnn_le (nnn : Addr12) : (zextNnn nnn).toNat ≤ 0xFFF := by
  have := nnn.isLt
  simp only [zextNnn, BitVec.toNat_setWidth]
  omega

/-- JP V0,nnn reaches at most `0xFFF + 0xFF` (R73). -/
theorem toNat_zextNnn_add_zextByte_le (nnn : Addr12) (b : Byte) :
    (zextNnn nnn + zextByte b).toNat ≤ 0x10FE := by
  have := nnn.isLt
  have := b.isLt
  simp only [zextNnn, zextByte, BitVec.toNat_add, BitVec.toNat_setWidth]
  omega

/-- An instruction run at the advanced `PC` of a fetch (at most 0x1000, and even under Strict) keeps
the bounds. -/
theorem exec_keeps_pcBounds (hle : s.pc.toNat ≤ 0x1000)
    (heven : s.params.pcCheck = .strict → s.pc.toNat % 2 = 0) (hP : PcBounds s)
    (h : exec i s = .next t) : PcBounds t := by
  obtain ⟨-, hcells, hcellsEven⟩ := hP
  refine ⟨?pc, fun k => ?cell, fun hstrict k => ?cellEven⟩
  case pc =>
    rcases exec_pc_cases h with e | e | ⟨k, e⟩ | ⟨nnn, e⟩ | ⟨nnn, b, e⟩ <;> rw [e]
    · omega
    · rw [toNat_add_two hle]; omega
    · exact (hcells k).trans (by omega)
    · exact (toNat_zextNnn_le nnn).trans (by omega)
    · exact toNat_zextNnn_add_zextByte_le nnn b
  case cell =>
    rcases exec_stack_cases h k with e | e <;> rw [e]
    · exact hcells k
    · exact hle
  case cellEven =>
    rw [exec_params h] at hstrict
    rcases exec_stack_cases h k with e | e <;> rw [e]
    · exact hcellsEven hstrict k
    · exact heven hstrict

/-- After a fetch `PC` is at most 0x1000 (R17, 40_cycle.md R58). -/
theorem FetchOk.advanced_le (hf : FetchOk s) : (s.pc + 2).toNat ≤ 0x1000 := by
  have := hf.1
  rw [toNat_add_two (by omega)]
  omega

/-- After a fetch under PC_CHECK = Strict `PC` is even, and so is what CALL pushes (R66). -/
theorem FetchOk.advanced_even (hf : FetchOk s) (hstrict : s.params.pcCheck = .strict) :
    (s.pc + 2).toNat % 2 = 0 := by
  obtain ⟨hle, hvalid⟩ := hf
  have := (hvalid hstrict).1
  rw [toNat_add_two (by omega)]
  omega

theorem pcBounds_fetched (hf : FetchOk s) (hP : PcBounds s) : PcBounds { s with pc := s.pc + 2 } :=
  ⟨hf.advanced_le.trans (by omega), hP.2⟩

theorem pcBounds_congr (hparams : t.params = s.params) (hpc : t.pc = s.pc)
    (hstack : t.stack = s.stack) (hP : PcBounds s) : PcBounds t := by
  unfold PcBounds
  rw [hpc, hstack, hparams]
  exact hP

/-- The reset state, under any parameters, is within the bounds (R27). -/
theorem pcBounds_resetWith (p : Config.Params) : PcBounds (State.resetWith p) := by
  simp [PcBounds, State.resetWith]

/-- Settles O15: `step_invariant` for `PcBounds`. A fetch that succeeds stands at `PC` at most 0xFFE,
even under Strict, so the instruction runs at most at 0x1000, where `exec_keeps_pcBounds` holds. -/
theorem stepKeepsProgramCounterBounds : Obligations.StepKeepsProgramCounterBounds := by
  unfold Obligations.StepKeepsProgramCounterBounds
  intro s t hP ht
  refine step_invariant (P := PcBounds) ?same ?fetched ?ran ?reset ?loaded hP ht
  case same => exact fun s t _ hparams hpc hstack => pcBounds_congr hparams hpc hstack
  case fetched => exact fun s hf hP => pcBounds_fetched hf hP
  case ran =>
    exact fun i s t hf hP =>
      exec_keeps_pcBounds hf.advanced_le hf.advanced_even (pcBounds_fetched hf hP)
  case reset => exact fun s _ => pcBounds_congr rfl rfl rfl (pcBounds_resetWith s.params)
  case loaded => exact fun s bytes hP _ => pcBounds_congr rfl rfl rfl hP

/-- Settles O16: the memory list of the reset state is empty. -/
theorem resetMeetsBothInvariants : Obligations.ResetMeetsBothInvariants :=
  ⟨rfl, pcBounds_resetWith _⟩

end Sys2Proof.Machine
end

section
/-! Who writes `VF` (10_state.md R15). -/

namespace Sys2Proof.Machine

variable {i : Instr} {s t : State}

theorem dest_of_writeReg {x q : Reg} {b : Byte} (h : (.next (s.writeReg x b) : Result) = .next t)
    (hne : t.readReg q ≠ s.readReg q) : x = q := by
  obtain rfl := Host.Outcome.next.inj h
  by_contra hx
  exact hne (s.readReg_writeReg_of_ne b (Ne.symm hx))

/-- A block load changes no register above its last one (43_index_memory.md R93). -/
theorem le_of_ldVxMem {x q : Reg} (h : exec (.ldVxMem x) s = .next t)
    (hne : t.readReg q ≠ s.readReg q) : q ≤ x := by
  by_contra hx
  rcases conclude_cases h with ⟨-, -, rfl⟩ | ⟨kind, info, -, rfl⟩
  · have hlt : x.val < q.val := not_le.1 hx
    have hout : ¬ (0 ≤ q.val ∧ q.val < 0 + (s.bytesAt (s.effAddr 0) (x.val + 1)).length) := by
      rw [State.bytesAt_length]; omega
    exact hne ((writeBlock_get _ _ _ q).trans (dif_neg hout))
  · exact hne rfl

/-- Settles O20: an instruction that changes `VF` writes registers; it is one of the side-effect
writers, or its one destination is `VF`, or the block it loads reaches up to `VF`. -/
theorem flagHasOnlyItsWriters : Obligations.FlagHasOnlyItsWriters := by
  unfold Obligations.FlagHasOnlyItsWriters
  intro i s t h hne
  cases i with
  | addReg | subReg | subnReg | shr | shl | drw => simp
  | ldImm | addImm | rnd | ldReg | orReg | andReg | xorReg | ldVxDt =>
    obtain rfl := dest_of_writeReg h hne
    simp
  | ldVxMem x =>
    obtain rfl : regF = x := le_antisymm (le_of_ldVxMem h hne) (Fin.le_last x)
    simp
  | _ => exact absurd ((exec_keeps h).readReg (by simp [itemsWritten]) regF) hne

end Sys2Proof.Machine
end

section
/-! `ST` is read by no instruction (10_state.md R20): every operation commutes with a write to it. -/

namespace Sys2Proof.Machine

variable {i : Instr} {s t u u' : State} {b : Byte}

theorem State.skipIf_setSt (s : State) (c : Bool) (b : Byte) :
    (s.setSt b).skipIf c = (s.skipIf c).setSt b := by
  cases c <;> rfl

theorem State.writeFlagged_setSt (s : State) (x : Reg) (flag result b : Byte) :
    (s.setSt b).writeFlagged x flag result = (s.writeFlagged x flag result).setSt b := by
  unfold State.writeFlagged
  rw [State.setSt_params]
  split <;> rfl

theorem next_setSt (hu : u' = u.setSt b) (h : (.next u : Result) = .next t) :
    (.next u' : Result) = .next (t.setSt b) := by
  rw [hu, Host.Outcome.next.inj h]

/-- A handler whose check does not depend on `ST`. -/
theorem conclude_setSt {α : Type} {c : Checked α} {f f' : α → State}
    (hf : ∀ a, f' a = (f a).setSt b) (h : conclude c s f = .next t) :
    conclude c (s.setSt b) f' = .next (t.setSt b) := by
  rcases conclude_cases h with ⟨a, rfl, rfl⟩ | ⟨kind, info, rfl, rfl⟩
  · rw [conclude_ok, hf]
  · rfl

/-- Any instruction but LD ST,Vx runs the same whatever `ST` holds. -/
theorem exec_setSt (hi : ∀ x, i ≠ .ldStVx x) (h : exec i s = .next t) :
    exec i (s.setSt b) = .next (t.setSt b) := by
  cases i with
  | ldStVx x => exact absurd rfl (hi x)
  | ret =>
    by_cases hsp : s.sp.val = 0
    · simp only [exec, execRet, s.pop_empty _ hsp, (s.setSt b).pop_empty _ hsp] at h ⊢
      exact next_setSt rfl h
    · simp only [exec, execRet, s.pop_ok _ hsp, (s.setSt b).pop_ok _ hsp] at h ⊢
      exact next_setSt rfl h
  | call nnn =>
    by_cases hsp : s.sp.val < 16
    · simp only [exec, execCall, s.push_ok _ _ hsp, (s.setSt b).push_ok _ _ hsp] at h ⊢
      exact next_setSt rfl h
    · simp only [exec, execCall, s.push_full _ _ hsp, (s.setSt b).push_full _ _ hsp] at h ⊢
      exact next_setSt rfl h
  | seImm | sneImm | seReg | sneReg => exact next_setSt (s.skipIf_setSt _ b) h
  | addReg | subReg | shr | subnReg | shl => exact next_setSt (s.writeFlagged_setSt _ _ _ b) h
  | skp | sknp => exact conclude_setSt (fun _ => s.skipIf_setSt _ b) h
  | drw | ldB | ldMemVx | ldVxMem => exact conclude_setSt (fun _ => rfl) h
  | _ => exact next_setSt rfl h

/-- Settles O21: LD ST,Vx overwrites the `ST` it began with; for the others, `exec_setSt`. -/
theorem soundTimerIsReadByNoInstruction : Obligations.SoundTimerIsReadByNoInstruction := by
  unfold Obligations.SoundTimerIsReadByNoInstruction
  intro i s b
  obtain ⟨t, ht⟩ := exec_next i s
  refine ⟨t, ht, ?_, fun hi => exec_setSt hi ht⟩
  rintro ⟨x, rfl⟩
  exact ht

end Sys2Proof.Machine
end

section
/-! The keypad under every event (10_state.md R22). -/

namespace Sys2Proof.Machine

variable {s t : State}

/-- The ways a Step ends: its fetch is refused, its word is `Unknown`, or an instruction runs and the
timer bookkeeping closes it. -/
theorem stepEvent_cases {rnd : Byte} (h : stepEvent rnd s = .next t) :
    (∃ kind info, t = (s.setRnd rnd).raise kind info) ∨
    (∃ w, t = (s.beginStep rnd).advancePc.raiseIllegal w) ∨
    ∃ i u, exec i (s.beginStep rnd).advancePc = .next u ∧ t = u.timerBookkeeping := by
  cases hc : s.checkFetch with
  | raises kind info =>
    rw [stepEvent_of_raises rnd hc] at h
    exact .inl ⟨kind, info, (Host.Outcome.next.inj h).symm⟩
  | ok =>
    rw [stepEvent_of_fetchOk rnd (s.checkFetch_ok_iff.1 hc)] at h
    rcases decodeWord_cases s.fetchWord with ⟨i, hi⟩ | hu
    · obtain ⟨u, hexec⟩ := exec_next i (s.beginStep rnd).advancePc
      have hrun : endStep (exec i (s.beginStep rnd).advancePc) = .next t :=
        (runWord_instr hi).symm.trans h
      rw [hexec, endStep_next] at hrun
      exact .inr (.inr ⟨i, u, hexec, (Host.Outcome.next.inj hrun).symm⟩)
    · rw [runWord_unknown hu] at h
      exact .inr (.inl ⟨_, (Host.Outcome.next.inj h).symm⟩)

/-- No instruction writes the keypad. -/
theorem exec_key {i : Instr} (h : exec i s = .next t) : t.key = s.key :=
  (exec_keeps h).key (key_not_mem_itemsWritten i)

theorem stepEvent_key {rnd : Byte} (h : stepEvent rnd s = .next t) : t.key = s.key := by
  rcases stepEvent_cases h with ⟨kind, info, rfl⟩ | ⟨w, rfl⟩ | ⟨i, u, hexec, rfl⟩
  · rfl
  · rfl
  · rw [State.timerBookkeeping_key, exec_key hexec, State.advancePc_key, State.beginStep_key]

@[simp] theorem State.onLoadProgram_key (s : State) (bytes : List Byte) :
    (s.onLoadProgram bytes).key = s.key := by
  unfold State.onLoadProgram; split <;> rfl

@[simp] theorem State.onTick_key (s : State) : s.onTick.key = s.key := by
  unfold State.onTick; split <;> rfl

@[simp] theorem State.onReadByte_key (s : State) (a : Nat) : (s.onReadByte a).key = s.key := by
  unfold State.onReadByte; split <;> rfl

/-- Serving any event but `SetKey` and `Reset` leaves the keypad. -/
theorem serve_key {e : Event} (hset : ∀ k down, e ≠ .setKey k down) (hreset : e ≠ .reset)
    (h : serve e s = .next t) : t.key = s.key := by
  cases e with
  | setKey k down => exact absurd rfl (hset k down)
  | reset => exact absurd rfl hreset
  | step rnd => exact stepEvent_key h
  | loadProgram bytes => exact Host.Outcome.next.inj h ▸ s.onLoadProgram_key bytes
  | tick => exact Host.Outcome.next.inj h ▸ s.onTick_key
  | readByte a => exact Host.Outcome.next.inj h ▸ s.onReadByte_key a
  | snapshotVideo | readDelayTimer | readSoundTimer | keyState =>
    exact Host.Outcome.next.inj h ▸ s.setReply_key _

/-- Settles O23: with nothing pending the event is a Step; of the pending ones only `SetKey` and `Reset`
are left by `serve_key`. -/
theorem keysChangeOnlyByTheHost : Obligations.KeysChangeOnlyByTheHost := by
  unfold Obligations.KeysChangeOnlyByTheHost
  intro s t h hne
  cases hp : s.pending with
  | nil =>
    rw [step_of_nil hp] at h
    exact absurd (stepEvent_key h) hne
  | cons e rest =>
    rw [step_of_cons hp] at h
    by_contra hother
    refine hne (serve_key (s := s.setPending rest) (fun k down he => ?setKey) (fun he => ?reset) h)
    case setKey => exact hother (.inl ⟨k, down, rest, by rw [he]⟩)
    case reset => exact hother (.inr ⟨rest, by rw [he]⟩)

end Sys2Proof.Machine
end

section
/-! The reset state (10_state.md R27). -/

namespace Sys2Proof.Machine

open Config

/-- Outside the glyph set an address that is not listed reads as 0 (R27, R29). -/
theorem Memory.unlisted_outside (rom : Vector Byte 80) {a : Nat} (h : a < 0x050 ∨ 0x0A0 ≤ a) :
    Memory.unlisted rom a = 0 :=
  if_neg (by unfold glyphBase glyphLen; omega)

theorem State.byteAt_resetWith (p : Params) (a : Nat) :
    (State.resetWith p).byteAt a = Memory.unlisted p.glyphRom a := rfl

@[simp] theorem State.readReg_resetWith (p : Params) (r : Reg) : (State.resetWith p).readReg r = 0 := by
  simp [State.readReg, State.resetWith]

@[simp] theorem State.stack_resetWith (p : Params) (k : Fin 16) : (State.resetWith p).stack[k] = 0 := by
  simp [State.resetWith]

/-- The empty framebuffer has no pixel set. -/
@[simp] theorem Framebuffer.pixel_replicate_zero (row col : Nat) :
    Framebuffer.pixel (Vector.replicate 32 0) row col = false := by
  simp [Framebuffer.pixel]

/-- Settles O55: item by item; the glyph bytes named are the decided ones, by evaluation. -/
theorem resetStateHoldsTheSpecValues : Obligations.ResetStateHoldsTheSpecValues := by
  unfold Obligations.ResetStateHoldsTheSpecValues
  refine ⟨fun a ha => ?outside, by decide, by decide, State.readReg_resetWith _,
    State.stack_resetWith _, rfl, rfl, rfl, rfl, rfl, Framebuffer.pixel_replicate_zero, by decide⟩
  case outside =>
    rw [State.reset, State.byteAt_resetWith, Memory.unlisted_outside _ ha]

end Sys2Proof.Machine
end

section
/-! The canonical form of the memory (20_memory.md R28, R33) under every event. -/

namespace Sys2Proof.Machine

open Config

variable {i : Instr} {s t : State}

/-- Of a handler's two ways to end, the raise keeps the memory list by itself; only the writes after a
passed check are left to show. -/
theorem conclude_mem {α : Type} {c : Checked α} {f : α → State}
    (hf : ∀ a, c = .ok a → (f a).mem = s.mem) (h : conclude c s f = .next t) : t.mem = s.mem := by
  rcases conclude_cases h with ⟨a, hc, rfl⟩ | ⟨kind, info, -, rfl⟩
  · exact hf a hc
  · exact s.raise_mem kind info

/-- An instruction that does not write memory keeps the very list, where `exec_keeps` gives its
readings. -/
theorem exec_mem (hi : .mem ∉ itemsWritten i) (h : exec i s = .next t) : t.mem = s.mem := by
  cases i with
  | ldB | ldMemVx => simp [itemsWritten] at hi
  | ret =>
    refine conclude_mem (fun r hc => ?_) h
    obtain ⟨k, d, rfl⟩ := State.pop_eq_ok hc
    rfl
  | call nnn =>
    refine conclude_mem (fun u hc => ?_) h
    obtain ⟨k, d, rfl⟩ := State.push_eq_ok hc
    rfl
  | skp | sknp => exact conclude_mem (fun _ _ => s.skipIf_mem _) h
  | drw => exact conclude_mem (fun _ _ => (State.writeReg_mem _ _ _).trans (s.setFb_mem _)) h
  | ldVxMem => exact conclude_mem (fun _ _ => s.setV_mem _) h
  | seImm | sneImm | seReg | sneReg => exact Host.Outcome.next.inj h ▸ s.skipIf_mem _
  | addReg | subReg | shr | subnReg | shl =>
    exact Host.Outcome.next.inj h ▸ s.writeFlagged_mem _ _ _
  | _ => exact Host.Outcome.next.inj h ▸ rfl

theorem memoryCanonical_congr (hmem : t.mem = s.mem) (hparams : t.params = s.params)
    (hP : MemoryCanonical s) : MemoryCanonical t := by
  unfold MemoryCanonical
  rw [hmem, hparams]
  exact hP

/-- A store inside memory keeps the canonical form. -/
theorem memoryCanonical_setBytes (hP : MemoryCanonical s) {a : Nat} {bs : List Byte}
    (ha : bs = [] ∨ a + bs.length ≤ memSize) : MemoryCanonical (s.setBytes a bs) :=
  Memory.wf_writeAll _ hP bs ha

/-- A store at `I` behind the range check of its own length is inside memory or is not made (R87). -/
theorem memoryCanonical_checkedStore (hP : MemoryCanonical s) {bs : List Byte}
    (h : conclude (s.checkRange bs.length) s (fun _ => s.setBytes (s.effAddr 0) bs) = .next t) :
    MemoryCanonical t := by
  rcases s.checkRange_cases bs.length with ⟨hc, hlen⟩ | ⟨hc, -, -⟩
  · rw [hc, conclude_ok] at h
    obtain rfl := Host.Outcome.next.inj h
    exact memoryCanonical_setBytes hP (hlen.imp_left List.length_eq_zero_iff.1)
  · rw [hc, conclude_raises] at h
    exact Host.Outcome.next.inj h ▸ hP

/-- Every instruction keeps the canonical form: LD B and LD [I],Vx store behind a range check, and no
other writes memory. -/
theorem exec_keeps_memoryCanonical (hP : MemoryCanonical s) (h : exec i s = .next t) :
    MemoryCanonical t := by
  by_cases hi : .mem ∈ itemsWritten i
  · obtain ⟨x, rfl | rfl⟩ := mem_writers hi
    · exact memoryCanonical_checkedStore (bs := bcdDigits (s.readReg x)) hP h
    · refine memoryCanonical_checkedStore (bs := s.readBlock x) hP ?_
      rw [s.readBlock_length]
      exact h
  · exact memoryCanonical_congr (exec_mem hi h) (exec_params h) hP

/-- An image that `LoadProgram` accepts ends inside memory: `PROG_BASE + PROG_MAX = MEM_SIZE` (R7). -/
theorem memoryCanonical_loaded (hP : MemoryCanonical s) {bytes : List Byte}
    (hlen : bytes.length ≤ progMax) : MemoryCanonical (s.setBytes progBase bytes) :=
  memoryCanonical_setBytes hP (.inr (by unfold progMax at hlen; unfold progBase memSize; omega))

/-- Settles O14: `step_invariant` for `MemoryCanonical`. Instructions keep it by
`exec_keeps_memoryCanonical`, an accepted image fits (`memoryCanonical_loaded`), and `Reset` empties the
list. -/
theorem stepKeepsMemoryCanonical : Obligations.StepKeepsMemoryCanonical := by
  unfold Obligations.StepKeepsMemoryCanonical
  intro s t hP ht
  refine step_invariant (P := MemoryCanonical) ?same ?fetched ?ran ?reset ?loaded hP ht
  case same => exact fun s t hmem hparams _ _ => memoryCanonical_congr hmem hparams
  case fetched => exact fun s _ hP => hP
  case ran => exact fun i s t _ hP => exec_keeps_memoryCanonical (s := { s with pc := s.pc + 2 }) hP
  case reset => exact fun s _ => rfl
  case loaded => exact fun s bytes hP => memoryCanonical_loaded hP

end Sys2Proof.Machine
end

section
/-! LD [I],Vx seen by the next fetch (20_memory.md R35, R43). -/

namespace Sys2Proof.Machine

open Config

variable {s : State} {x : Reg}

/-- LD [I],Vx with its range inside memory stores the block of registers and nothing else (R87, R92). -/
theorem exec_ldMemVx_eq (hx : s.effAddr x.val < memSize) :
    exec (.ldMemVx x) s = .next (s.setBytes (s.effAddr 0) (s.readBlock x)) := by
  have hrange : s.checkRange (x.val + 1) = .ok () :=
    s.checkRange_ok (.inr (by unfold State.effAddr memSize at hx; omega))
  simp only [exec, execLdMemVx, hrange, conclude_ok]

/-- After a block store at `I` the byte at `I + k` is `V[k]`, for each `k` up to `x` (R92). -/
theorem State.byteAt_storedBlock (hP : MemoryCanonical s) (hx : s.effAddr x.val < memSize) {k : Reg}
    (hk : k ≤ x) :
    (s.setBytes (s.effAddr 0) (s.readBlock x)).byteAt (s.effAddr k.val) = s.readReg k := by
  have hlen : k.val < (s.readBlock x).length := by
    rw [s.readBlock_length]; exact Nat.lt_succ_of_le hk
  have hfit : s.effAddr 0 + (s.readBlock x).length ≤ memSize := by
    rw [s.readBlock_length]; unfold State.effAddr at *; omega
  exact (s.byteAt_setBytes_inside hP _ hlen hfit).trans (s.readBlock_getElem x k.val hlen)

/-- Settles O50: the two bytes a fetch at `PC` joins are those the store put at `I + k` and
`I + k + 1`. -/
theorem storedOpcodeIsFetchedNext : Obligations.StoredOpcodeIsFetchedNext := by
  unfold Obligations.StoredOpcodeIsFetchedNext
  intro s x k k' hP hx hsucc hk' hpc
  have hk : k ≤ x := le_trans (Fin.le_def.2 (by omega)) hk'
  have hnext : s.effAddr k.val + 1 = s.effAddr k'.val := by unfold State.effAddr; omega
  refine ⟨_, exec_ldMemVx_eq hx, State.setBytes_pc _ _ _, ?_⟩
  rw [State.fetchWord, joinBytes_toNat, State.setBytes_pc, hpc, hnext,
    State.byteAt_storedBlock hP hx hk, State.byteAt_storedBlock hP hx hk']

end Sys2Proof.Machine
end

section
/-! A well-formed instruction's word decodes to it, alone and in a byte sequence (30_encoding.md R44,
R49, R54). -/

namespace Sys2Proof

/-- Decoding undoes encoding: the family `Laws.RoundTrip`, instruction by instruction. -/
theorem decodeWord_encode (i : Instr) : i.wf = true → decodeWord (encode i) = .instr i := by
  cases i with
  | cls => exact Laws.RoundTrip.cls
  | ret => exact Laws.RoundTrip.ret
  | jp nnn => exact Laws.RoundTrip.jp nnn
  | call nnn => exact Laws.RoundTrip.call nnn
  | seImm x kk => exact Laws.RoundTrip.seImm x kk
  | sneImm x kk => exact Laws.RoundTrip.sneImm x kk
  | seReg x y => exact Laws.RoundTrip.seReg x y
  | ldImm x kk => exact Laws.RoundTrip.ldImm x kk
  | addImm x kk => exact Laws.RoundTrip.addImm x kk
  | ldReg x y => exact Laws.RoundTrip.ldReg x y
  | orReg x y => exact Laws.RoundTrip.orReg x y
  | andReg x y => exact Laws.RoundTrip.andReg x y
  | xorReg x y => exact Laws.RoundTrip.xorReg x y
  | addReg x y => exact Laws.RoundTrip.addReg x y
  | subReg x y => exact Laws.RoundTrip.subReg x y
  | shr x y => exact Laws.RoundTrip.shr x y
  | subnReg x y => exact Laws.RoundTrip.subnReg x y
  | shl x y => exact Laws.RoundTrip.shl x y
  | sneReg x y => exact Laws.RoundTrip.sneReg x y
  | ldI nnn => exact Laws.RoundTrip.ldI nnn
  | jpV0 nnn => exact Laws.RoundTrip.jpV0 nnn
  | rnd x kk => exact Laws.RoundTrip.rnd x kk
  | drw x y n => exact Laws.RoundTrip.drw x y n
  | skp x => exact Laws.RoundTrip.skp x
  | sknp x => exact Laws.RoundTrip.sknp x
  | ldVxDt x => exact Laws.RoundTrip.ldVxDt x
  | ldDtVx x => exact Laws.RoundTrip.ldDtVx x
  | ldStVx x => exact Laws.RoundTrip.ldStVx x
  | addI x => exact Laws.RoundTrip.addI x
  | ldF x => exact Laws.RoundTrip.ldF x
  | ldB x => exact Laws.RoundTrip.ldB x
  | ldMemVx x => exact Laws.RoundTrip.ldMemVx x
  | ldVxMem x => exact Laws.RoundTrip.ldVxMem x

/-- The bytes of a word that decodes, high byte first, decode to the same instruction and are used up. -/
theorem decodeBytes_wordBytes {w : Word} {i : Instr} (h : decodeWord w = .instr i) (rest : List Byte) :
    decodeBytes (wordBytes w ++ rest) = .instr i rest := by
  simp [decodeBytes, wordBytes, h]

/-- Settles O1: the round trip of the word, read back from its two bytes. -/
theorem decodeOfEncodedBytesGivesTheInstruction :
    Obligations.DecodeOfEncodedBytesGivesTheInstruction := by
  unfold Obligations.DecodeOfEncodedBytesGivesTheInstruction
  intro i rest hwf
  exact decodeBytes_wordBytes (decodeWord_encode i hwf) rest

end Sys2Proof
end

section
/-! The word of a decoded instruction (30_encoding.md R46, R54): each layout filled with a word's own
fields is the word, so what the decoder reads is what the encoder writes. -/

namespace Sys2Proof

variable {w : Word} {i : Instr}

theorem encXY_fields (w : Word) : encXY (fieldOp w) (fieldX w) (fieldY w) (fieldN w) = w :=
  nibbles_fields w

theorem encXKK_fields (w : Word) : encXKK (fieldOp w) (fieldX w) (fieldKk w) = w := by
  apply BitVec.eq_of_toNat_eq
  rw [encXKK_toNat, fieldOp_toNat, fieldX_val, fieldKk_toNat]
  omega

theorem encNNN_fields (w : Word) : encNNN (fieldOp w) (fieldNnn w) = w := by
  apply BitVec.eq_of_toNat_eq
  rw [encNNN_toNat, fieldOp_toNat, fieldNnn_toNat]
  omega

/-- Format NNN, the primary opcode given as the decoder matches it. -/
theorem encNNN_of_op {op : BitVec 4} (hop : (fieldOp w).toNat = op.toNat) :
    encNNN op (fieldNnn w) = w :=
  BitVec.eq_of_toNat_eq hop ▸ encNNN_fields w

/-- Format XKK, the primary opcode given as the decoder matches it. -/
theorem encXKK_of_op {op : BitVec 4} (hop : (fieldOp w).toNat = op.toNat) :
    encXKK op (fieldX w) (fieldKk w) = w :=
  BitVec.eq_of_toNat_eq hop ▸ encXKK_fields w

/-- Format X, where the low byte is part of the opcode. -/
theorem encXKK_of_op_kk {op : BitVec 4} {kk : Byte} (hop : (fieldOp w).toNat = op.toNat)
    (hkk : (fieldKk w).toNat = kk.toNat) : encXKK op (fieldX w) kk = w :=
  BitVec.eq_of_toNat_eq hkk ▸ encXKK_of_op hop

/-- Format XY, where the low nibble is part of the opcode. -/
theorem encXY_of_op_n {op n : BitVec 4} (hop : (fieldOp w).toNat = op.toNat)
    (hn : (fieldN w).toNat = n.toNat) : encXY op (fieldX w) (fieldY w) n = w :=
  BitVec.eq_of_toNat_eq hop ▸ BitVec.eq_of_toNat_eq hn ▸ encXY_fields w

theorem encode_of_decodeGroup8 (hop : (fieldOp w).toNat = 0x8) (h : decodeGroup8 w = .instr i) :
    i.wf = true ∧ encode i = w := by
  unfold decodeGroup8 at h
  split at h
  case h_10 => cases h
  all_goals
    next hn =>
      obtain rfl := Decoded.instr.inj h
      exact ⟨rfl, encXY_of_op_n hop hn⟩

theorem encode_of_decodeGroupF (hop : (fieldOp w).toNat = 0xF) (h : decodeGroupF w = .instr i) :
    i.wf = true ∧ encode i = w := by
  unfold decodeGroupF at h
  split at h
  case h_9 => cases h
  all_goals
    next hkk =>
      obtain rfl := Decoded.instr.inj h
      exact ⟨rfl, encXKK_of_op_kk hop hkk⟩

/-- Encoding undoes decoding, and the decoder answers well-formed instructions only. -/
theorem encode_of_decodeWord (h : decodeWord w = .instr i) : i.wf = true ∧ encode i = w := by
  unfold decodeWord at h
  split at h
  case h_1 =>
    split_ifs at h with hcls hret <;> obtain rfl := Decoded.instr.inj h
    · exact ⟨rfl, hcls.symm⟩
    · exact ⟨rfl, hret.symm⟩
  case h_2 hop | h_3 hop | h_11 hop | h_12 hop =>
    obtain rfl := Decoded.instr.inj h
    exact ⟨rfl, encNNN_of_op hop⟩
  case h_4 hop | h_5 hop | h_7 hop | h_8 hop | h_13 hop =>
    obtain rfl := Decoded.instr.inj h
    exact ⟨rfl, encXKK_of_op hop⟩
  case h_6 hop | h_10 hop =>
    split_ifs at h with hn
    obtain rfl := Decoded.instr.inj h
    exact ⟨rfl, encXY_of_op_n hop (congrArg BitVec.toNat hn)⟩
  case h_9 hop => exact encode_of_decodeGroup8 hop h
  case h_14 hop =>
    obtain rfl := Decoded.instr.inj h
    have hn : (fieldN w).toNat ≤ 15 := Nat.le_of_lt_succ (fieldN w).isLt
    exact ⟨decide_eq_true hn, encXY_of_op_n hop (by rw [BitVec.ofNat_toNat, BitVec.setWidth_eq])⟩
  case h_15 hop =>
    split_ifs at h with hskp hsknp <;> obtain rfl := Decoded.instr.inj h
    · exact ⟨rfl, encXKK_of_op_kk hop (congrArg BitVec.toNat hskp)⟩
    · exact ⟨rfl, encXKK_of_op_kk hop (congrArg BitVec.toNat hsknp)⟩
  case h_16 =>
    have hop : (fieldOp w).toNat = 0xF := by
      have := (fieldOp w).isLt
      grind
    exact encode_of_decodeGroupF hop h

/-- Settles O2: `encode_of_decodeWord`, branch by branch of the decoder. -/
theorem encodeOfDecodedWordGivesTheWord : Obligations.EncodeOfDecodedWordGivesTheWord := by
  unfold Obligations.EncodeOfDecodedWordGivesTheWord
  exact fun w i h => encode_of_decodeWord h

end Sys2Proof
end

section
/-! The opcode map of R48: what a row's mask and match say of the fields of a word, and the row of each
instruction (30_encoding.md R48, R49). -/

namespace Sys2Proof

variable {w : Word} {i : Instr} {r : OpcodeRow}

/-- A row of mask `F000` selects by the primary opcode. -/
theorem selects_op_iff {k : Nat} (op : BitVec 4) :
    OpcodeRow.selects ⟨k, nibbles op 0 0 0, 0xF000⟩ w = true ↔ fieldOp w = op := by
  have hmask : w &&& 0xF000 = nibbles (fieldOp w) 0 0 0 := by
    rw [show (0xF000 : Word) = nibbles 0xF 0 0 0 from rfl, and_nibbles]; simp
  simp only [OpcodeRow.selects, beq_iff_eq, hmask, nibbles_inj, and_true]

/-- A row of mask `F00F` selects by the primary opcode and the low nibble. -/
theorem selects_op_n_iff {k : Nat} (op n : BitVec 4) :
    OpcodeRow.selects ⟨k, nibbles op 0 0 n, 0xF00F⟩ w = true ↔ fieldOp w = op ∧ fieldN w = n := by
  have hmask : w &&& 0xF00F = nibbles (fieldOp w) 0 0 (fieldN w) := by
    rw [show (0xF00F : Word) = nibbles 0xF 0 0 0xF from rfl, and_nibbles]; simp
  simp only [OpcodeRow.selects, beq_iff_eq, hmask, nibbles_inj, true_and]

/-- The mask of format X clears `x`. -/
theorem encXKK_and (op : BitVec 4) (x : Reg) (kk : Byte) :
    encXKK op x kk &&& 0xF0FF = encXKK op 0 kk := by
  have hhigh : (op ++ (BitVec.ofFin x : BitVec 4) : BitVec 8) &&& (0xF#4 ++ 0#4) = op ++ 0#4 := by
    rw [BitVec.and_append]; simp
  have hlow : kk &&& 0xFF#8 = kk := BitVec.and_allOnes
  unfold encXKK
  rw [show (0xF0FF : Word) = (0xF#4 ++ 0#4 : BitVec 8) ++ 0xFF#8 from rfl, BitVec.and_append,
    hhigh, hlow]
  rfl

theorem encXKK_zero_inj {op op' : BitVec 4} {kk kk' : Byte} :
    encXKK op 0 kk = encXKK op' 0 kk' ↔ op = op' ∧ kk = kk' := by
  constructor
  · intro h
    exact ⟨by simpa using congrArg fieldOp h, by simpa using congrArg fieldKk h⟩
  · rintro ⟨rfl, rfl⟩; rfl

/-- A row of mask `F0FF` selects by the primary opcode and the low byte. -/
theorem selects_op_kk_iff {k : Nat} (op : BitVec 4) (kk : Byte) :
    OpcodeRow.selects ⟨k, encXKK op 0 kk, 0xF0FF⟩ w = true ↔ fieldOp w = op ∧ fieldKk w = kk := by
  have hmask : w &&& 0xF0FF = encXKK (fieldOp w) 0 (fieldKk w) := by
    rw [← encXKK_and (fieldOp w) (fieldX w) (fieldKk w), encXKK_fields]
  simp only [OpcodeRow.selects, beq_iff_eq, hmask, encXKK_zero_inj]

/-- Each instruction's word is selected by the row of its number. -/
theorem exists_row_selects_encode (i : Instr) :
    ∃ r ∈ opcodeRows, r.selects (encode i) = true ∧ i.rowNumber = r.number := by
  cases i with
  | cls => exact ⟨⟨1, 0x00E0, 0xFFFF⟩, by decide, by decide, rfl⟩
  | ret => exact ⟨⟨2, 0x00EE, 0xFFFF⟩, by decide, by decide, rfl⟩
  | jp | call | ldI | jpV0 =>
    refine ⟨⟨_, _, 0xF000⟩, ?_, (selects_op_iff _).2 (fieldOp_encNNN _ _), rfl⟩
    decide
  | seImm | sneImm | ldImm | addImm | rnd =>
    refine ⟨⟨_, _, 0xF000⟩, ?_, (selects_op_iff _).2 (fieldOp_encXKK _ _ _), rfl⟩
    decide
  | drw =>
    refine ⟨⟨_, _, 0xF000⟩, ?_, (selects_op_iff _).2 (fieldOp_encXY _ _ _ _), rfl⟩
    decide
  | skp | sknp | ldVxDt | ldDtVx | ldStVx | addI | ldF | ldB | ldMemVx | ldVxMem =>
    refine ⟨⟨_, _, 0xF0FF⟩, ?_,
      (selects_op_kk_iff _ _).2 ⟨fieldOp_encXKK _ _ _, fieldKk_encXKK _ _ _⟩, rfl⟩
    decide
  | _ =>
    refine ⟨⟨_, _, 0xF00F⟩, ?_,
      (selects_op_n_iff _ _).2 ⟨fieldOp_encXY _ _ _ _, fieldN_encXY _ _ _ _⟩, rfl⟩
    decide

/-! Selection by a row fills the row's layout with the word's fields. -/

theorem eq_of_selects {k : Nat} {v : Word} (h : OpcodeRow.selects ⟨k, v, 0xFFFF⟩ w = true) : v = w := by
  have hmask : w &&& 0xFFFF#16 = w := BitVec.and_allOnes
  exact (beq_iff_eq.1 h).symm.trans hmask

theorem encNNN_of_selects {k : Nat} {op : BitVec 4}
    (h : OpcodeRow.selects ⟨k, nibbles op 0 0 0, 0xF000⟩ w = true) : encNNN op (fieldNnn w) = w :=
  (selects_op_iff op).1 h ▸ encNNN_fields w

theorem encXKK_of_selects {k : Nat} {op : BitVec 4}
    (h : OpcodeRow.selects ⟨k, nibbles op 0 0 0, 0xF000⟩ w = true) :
    encXKK op (fieldX w) (fieldKk w) = w :=
  (selects_op_iff op).1 h ▸ encXKK_fields w

theorem encXYN_of_selects {k : Nat} {op : BitVec 4}
    (h : OpcodeRow.selects ⟨k, nibbles op 0 0 0, 0xF000⟩ w = true) :
    encXY op (fieldX w) (fieldY w) (fieldN w) = w :=
  (selects_op_iff op).1 h ▸ encXY_fields w

theorem encXY_of_selects {k : Nat} {op n : BitVec 4}
    (h : OpcodeRow.selects ⟨k, nibbles op 0 0 n, 0xF00F⟩ w = true) :
    encXY op (fieldX w) (fieldY w) n = w := by
  obtain ⟨rfl, rfl⟩ := (selects_op_n_iff op n).1 h
  exact encXY_fields w

theorem encX_of_selects {k : Nat} {op : BitVec 4} {kk : Byte}
    (h : OpcodeRow.selects ⟨k, encXKK op 0 kk, 0xF0FF⟩ w = true) : encXKK op (fieldX w) kk = w := by
  obtain ⟨rfl, rfl⟩ := (selects_op_kk_iff op kk).1 h
  exact encXKK_fields w

/-- `w` decodes to an instruction of row `k`. -/
def DecodesToRow (w : Word) (k : Nat) : Prop := ∃ i, decodeWord w = .instr i ∧ i.rowNumber = k

theorem decodesToRow_of_encode (i : Instr) (hwf : i.wf = true) (h : encode i = w) :
    DecodesToRow w i.rowNumber :=
  ⟨i, h ▸ decodeWord_encode i hwf, rfl⟩

/-- Each of rows 1 to 19 with the instruction it is for, filled with the fields of the word. -/
theorem decodesToRow_low : ∀ r ∈ opcodeRowsLow, r.selects w = true → DecodesToRow w r.number := by
  simp only [opcodeRowsLow, List.forall_mem_cons]
  exact ⟨
    fun h => decodesToRow_of_encode .cls rfl (eq_of_selects h),
    fun h => decodesToRow_of_encode .ret rfl (eq_of_selects h),
    fun h => decodesToRow_of_encode (.jp (fieldNnn w)) rfl (encNNN_of_selects h),
    fun h => decodesToRow_of_encode (.call (fieldNnn w)) rfl (encNNN_of_selects h),
    fun h => decodesToRow_of_encode (.seImm (fieldX w) (fieldKk w)) rfl (encXKK_of_selects h),
    fun h => decodesToRow_of_encode (.sneImm (fieldX w) (fieldKk w)) rfl (encXKK_of_selects h),
    fun h => decodesToRow_of_encode (.seReg (fieldX w) (fieldY w)) rfl (encXY_of_selects h),
    fun h => decodesToRow_of_encode (.ldImm (fieldX w) (fieldKk w)) rfl (encXKK_of_selects h),
    fun h => decodesToRow_of_encode (.addImm (fieldX w) (fieldKk w)) rfl (encXKK_of_selects h),
    fun h => decodesToRow_of_encode (.ldReg (fieldX w) (fieldY w)) rfl (encXY_of_selects h),
    fun h => decodesToRow_of_encode (.orReg (fieldX w) (fieldY w)) rfl (encXY_of_selects h),
    fun h => decodesToRow_of_encode (.andReg (fieldX w) (fieldY w)) rfl (encXY_of_selects h),
    fun h => decodesToRow_of_encode (.xorReg (fieldX w) (fieldY w)) rfl (encXY_of_selects h),
    fun h => decodesToRow_of_encode (.addReg (fieldX w) (fieldY w)) rfl (encXY_of_selects h),
    fun h => decodesToRow_of_encode (.subReg (fieldX w) (fieldY w)) rfl (encXY_of_selects h),
    fun h => decodesToRow_of_encode (.shr (fieldX w) (fieldY w)) rfl (encXY_of_selects h),
    fun h => decodesToRow_of_encode (.subnReg (fieldX w) (fieldY w)) rfl (encXY_of_selects h),
    fun h => decodesToRow_of_encode (.shl (fieldX w) (fieldY w)) rfl (encXY_of_selects h),
    fun h => decodesToRow_of_encode (.sneReg (fieldX w) (fieldY w)) rfl (encXY_of_selects h),
    by simp⟩

theorem decodesToRow_drw (h : OpcodeRow.selects ⟨23, 0xD000, 0xF000⟩ w = true) :
    DecodesToRow w 23 := by
  refine decodesToRow_of_encode (.drw (fieldX w) (fieldY w) (fieldN w).toNat) ?wf ?enc
  case wf => exact decide_eq_true (Nat.le_of_lt_succ (fieldN w).isLt)
  case enc => rw [encode, BitVec.ofNat_toNat, BitVec.setWidth_eq]; exact encXYN_of_selects h

/-- Each of rows 20 to 33 with the instruction it is for. -/
theorem decodesToRow_high : ∀ r ∈ opcodeRowsHigh, r.selects w = true → DecodesToRow w r.number := by
  simp only [opcodeRowsHigh, List.forall_mem_cons]
  exact ⟨
    fun h => decodesToRow_of_encode (.ldI (fieldNnn w)) rfl (encNNN_of_selects h),
    fun h => decodesToRow_of_encode (.jpV0 (fieldNnn w)) rfl (encNNN_of_selects h),
    fun h => decodesToRow_of_encode (.rnd (fieldX w) (fieldKk w)) rfl (encXKK_of_selects h),
    decodesToRow_drw,
    fun h => decodesToRow_of_encode (.skp (fieldX w)) rfl (encX_of_selects h),
    fun h => decodesToRow_of_encode (.sknp (fieldX w)) rfl (encX_of_selects h),
    fun h => decodesToRow_of_encode (.ldVxDt (fieldX w)) rfl (encX_of_selects h),
    fun h => decodesToRow_of_encode (.ldDtVx (fieldX w)) rfl (encX_of_selects h),
    fun h => decodesToRow_of_encode (.ldStVx (fieldX w)) rfl (encX_of_selects h),
    fun h => decodesToRow_of_encode (.addI (fieldX w)) rfl (encX_of_selects h),
    fun h => decodesToRow_of_encode (.ldF (fieldX w)) rfl (encX_of_selects h),
    fun h => decodesToRow_of_encode (.ldB (fieldX w)) rfl (encX_of_selects h),
    fun h => decodesToRow_of_encode (.ldMemVx (fieldX w)) rfl (encX_of_selects h),
    fun h => decodesToRow_of_encode (.ldVxMem (fieldX w)) rfl (encX_of_selects h),
    by simp⟩

theorem decodesToRow_of_selects (hr : r ∈ opcodeRows) (h : r.selects w = true) :
    DecodesToRow w r.number :=
  (List.mem_append.1 hr).elim (decodesToRow_low r · h) (decodesToRow_high r · h)

theorem exists_row_of_decodeWord (h : decodeWord w = .instr i) :
    ∃ r ∈ opcodeRows, r.selects w = true ∧ i.rowNumber = r.number :=
  (encode_of_decodeWord h).2 ▸ exists_row_selects_encode i

/-- Settles O4: a row's word decodes to the row's instruction, a decoded word is selected by the row of
its instruction, and so a word that no row selects decodes to none. -/
theorem decoderAgreesWithOpcodeMap : Obligations.DecoderAgreesWithOpcodeMap := by
  unfold Obligations.DecoderAgreesWithOpcodeMap
  intro w
  refine ⟨fun r hr h => decodesToRow_of_selects hr h, fun i hi => exists_row_of_decodeWord hi,
    fun hnone => (decodeWord_cases w).resolve_left ?_⟩
  rintro ⟨i, hi⟩
  obtain ⟨r, hr, hsel, -⟩ := exists_row_of_decodeWord hi
  exact Bool.false_ne_true ((hnone r hr).symm.trans hsel)

end Sys2Proof
end

section
/-! What the assembler does to the `y` of the shifts (30_encoding.md R51, R54). -/

namespace Sys2Proof

variable {w : Word} {i : Instr} {r : OpcodeRow}

theorem opcodeRows_number_inj :
    ∀ r ∈ opcodeRows, ∀ r' ∈ opcodeRows, r.number = r'.number → r = r' := by
  decide

/-- Of a word that decodes, the selecting row is the row of its instruction. -/
theorem selects_iff_rowNumber (hi : decodeWord w = .instr i) (hr : r ∈ opcodeRows) :
    r.selects w = true ↔ i.rowNumber = r.number := by
  constructor
  · intro h
    obtain ⟨j, hj, hnum⟩ := decodesToRow_of_selects hr h
    rwa [Decoded.instr.inj (hi.symm.trans hj)]
  · intro h
    obtain ⟨r', hr', hsel, hnum⟩ := exists_row_of_decodeWord hi
    rwa [opcodeRows_number_inj r hr r' hr' (h.symm.trans hnum)]

/-- The words of SHR and SHL, rows 16 and 18. -/
theorem shiftWord_iff (hi : decodeWord w = .instr i) :
    (w &&& 0xF00F = 0x8006 ∨ w &&& 0xF00F = 0x800E) ↔ i.rowNumber = 16 ∨ i.rowNumber = 18 := by
  have hshr := selects_iff_rowNumber (r := ⟨16, 0x8006, 0xF00F⟩) hi (by decide)
  have hshl := selects_iff_rowNumber (r := ⟨18, 0x800E, 0xF00F⟩) hi (by decide)
  rw [OpcodeRow.selects, beq_iff_eq] at hshr hshl
  exact or_congr hshr hshl

/-- The mask `FF0F` clears `y`. -/
theorem encXY_and (op : BitVec 4) (x y : Reg) (n : BitVec 4) :
    encXY op x y n &&& 0xFF0F = encXY op x 0 n := by
  rw [show (0xFF0F : Word) = nibbles 0xF 0xF 0 0xF from rfl, encXY, nibbles_and]
  simp [encXY]

theorem assemble_vy (i : Instr) : assemble .vy i = encode i := by
  cases i <;> rfl

theorem assemble_vx_shift (h : i.rowNumber = 16 ∨ i.rowNumber = 18) :
    assemble .vx i = encode i &&& 0xFF0F := by
  cases i with
  | shr x y => exact (encXY_and 0x8 x y 0x6).symm
  | shl x y => exact (encXY_and 0x8 x y 0xE).symm
  | _ => simp [Instr.rowNumber] at h

theorem assemble_vx_of_not_shift (h : ¬ (i.rowNumber = 16 ∨ i.rowNumber = 18)) :
    assemble .vx i = encode i := by
  cases i with
  | shr | shl => simp [Instr.rowNumber] at h
  | _ => rfl

/-- Settles O3: the shift words are those of rows 16 and 18, on which alone `canonical` acts, and
encoding undoes decoding. -/
theorem assemblerZeroesTheIgnoredShiftField : Obligations.AssemblerZeroesTheIgnoredShiftField := by
  unfold Obligations.AssemblerZeroesTheIgnoredShiftField
  intro w i hi
  have henc : encode i = w := (encode_of_decodeWord hi).2
  refine ⟨?_, (assemble_vy i).trans henc⟩
  rw [if_congr (shiftWord_iff hi) rfl rfl]
  split_ifs with hshift
  · rw [assemble_vx_shift hshift, henc]
  · rw [assemble_vx_of_not_shift hshift, henc]

end Sys2Proof
end

section
/-! The words that decode to no instruction (30_encoding.md R50), and sample words. -/

namespace Sys2Proof

variable (w : Word)

theorem decodeGroup8_unknown_iff : decodeGroup8 w = .unknown w ↔
    w.toNat % 16 ∈ [0x8, 0x9, 0xA, 0xB, 0xC, 0xD, 0xF] := by
  unfold decodeGroup8
  rw [fieldN_toNat]
  split
  case h_10 => simp only [imp_false] at *; simp; omega
  all_goals
    next hn => simp [hn]

theorem decodeGroupF_unknown_iff : decodeGroupF w = .unknown w ↔
    w.toNat % 256 ∉ [0x07, 0x15, 0x18, 0x1E, 0x29, 0x33, 0x55, 0x65] := by
  unfold decodeGroupF
  rw [fieldKk_toNat]
  split
  case h_9 => simp only [imp_false] at *; simp; omega
  all_goals
    next hkk => simp [hkk]

theorem fieldN_eq_iff (n : BitVec 4) : fieldN w = n ↔ w.toNat % 16 = n.toNat := by
  rw [← fieldN_toNat, BitVec.toNat_inj]

theorem fieldKk_eq_iff (kk : Byte) : fieldKk w = kk ↔ w.toNat % 256 = kk.toNat := by
  rw [← fieldKk_toNat, BitVec.toNat_inj]

/-- Where the decoder asks whether the word is one instruction's, `Unknown` needs the answer no. -/
theorem ite_instr_eq_unknown_iff {p : Prop} [Decidable p] (i : Instr) (d : Decoded) :
    (if p then .instr i else d) = .unknown w ↔ ¬ p ∧ d = .unknown w := by
  by_cases hp : p <;> simp [hp]

/-- Settles O5: by the decoder's case on the primary opcode. Of its sixteen groups only 0, 5, 8, 9, E and F
can answer `Unknown`, each under the condition R50 lists for it. -/
theorem unknownWordsAreTheListedGroups : Obligations.UnknownWordsAreTheListedGroups := by
  unfold Obligations.UnknownWordsAreTheListedGroups
  intro w
  unfold decodeWord
  rw [fieldOp_toNat]
  split
  case h_1 hop => simp [hop, ite_instr_eq_unknown_iff, ← BitVec.toNat_inj]
  case h_6 hop | h_10 hop => simp [hop, fieldN_eq_iff]
  case h_9 hop => simp [hop, decodeGroup8_unknown_iff]
  case h_15 hop => simp [hop, ite_instr_eq_unknown_iff, fieldKk_eq_iff]
  case h_16 =>
    have hop : w.toNat / 4096 = 15 := by have := w.isLt; grind
    simp [hop, decodeGroupF_unknown_iff]
  all_goals
    next hop => simp [hop]

/-- Settles O6, by evaluation. -/
theorem sampleWordsDecodeAsWritten : Obligations.SampleWordsDecodeAsWritten := by
  unfold Obligations.SampleWordsDecodeAsWritten
  decide

end Sys2Proof
end

section
/-! The ways a Step ends (spec/40_cycle.md R57 to R65): its closing timer bookkeeping, and which state
each of its errors is raised from. -/

namespace Sys2Proof.Machine

variable {s t : State} {rnd : Byte}

/-! The closing bookkeeping (R64), one equation per case. -/

theorem State.timerBookkeeping_perStep (hm : s.params.timerMode = .perStep) (hr : s.reply = .ok) :
    s.timerBookkeeping = s.tick :=
  s.timerBookkeeping_cases.elim And.left fun h => absurd ⟨hm, hr⟩ h.2

theorem State.timerBookkeeping_external (hm : s.params.timerMode = .external) :
    s.timerBookkeeping = s := by
  rcases s.timerBookkeeping_cases with ⟨-, hper, -⟩ | ⟨h, -⟩
  · simp [hm] at hper
  · exact h

theorem State.timerBookkeeping_of_erred (he : s.erred = true) : s.timerBookkeeping = s := by
  rcases s.timerBookkeeping_cases with ⟨-, -, hok⟩ | ⟨h, -⟩
  · simp [State.erred, State.report, hok] at he
  · exact h

theorem State.erred_of_ok (hr : s.reply = .ok) : s.erred = false := by
  simp [State.erred, State.report, hr]

/-- Settles O8: the three cases of the bookkeeping. -/
theorem completedStepTicksOnlyPerStep : Obligations.CompletedStepTicksOnlyPerStep := by
  unfold Obligations.CompletedStepTicksOnlyPerStep
  intro t
  exact ⟨fun hm hr => congrArg _ (State.timerBookkeeping_perStep hm hr),
    fun hm => congrArg _ (State.timerBookkeeping_external hm),
    fun he => congrArg _ (State.timerBookkeeping_of_erred he)⟩

/-! A Step that can fetch. -/

/-- The fetched word decodes as the two bytes at `PC` do. -/
theorem decodeWord_fetchWord {i : Instr}
    (h : decodeBytes [s.byteAt s.pc.toNat, s.byteAt (s.pc.toNat + 1)] = .instr i []) :
    decodeWord s.fetchWord = .instr i := by
  rw [decodeBytes_fetch] at h
  rcases decodeWord_cases s.fetchWord with ⟨j, hj⟩ | hu
  · rw [hj] at h ⊢
    rw [(DecodedBytes.instr.inj h).1]
  · rw [hu] at h
    cases h

theorem stepEvent_of_instr {i : Instr} (rnd : Byte) (hf : FetchOk s)
    (hi : decodeWord s.fetchWord = .instr i) :
    stepEvent rnd s = endStep (exec i (s.beginStep rnd).advancePc) :=
  (stepEvent_of_fetchOk rnd hf).trans (runWord_instr hi)

theorem stepEvent_of_unknown {w : Word} (rnd : Byte) (hf : FetchOk s)
    (hu : decodeWord s.fetchWord = .unknown w) :
    stepEvent rnd s = .next ((s.beginStep rnd).advancePc.raise .illegalInstruction w) :=
  (stepEvent_of_fetchOk rnd hf).trans (runWord_unknown hu)

/-- Settles O7: the step is a Step with the argument drawn or pending, and that Step runs the decoded
word. -/
theorem stepRunsTheDecodedInstruction : Obligations.StepRunsTheDecodedInstruction := by
  unfold Obligations.StepRunsTheDecodedInstruction
  intro s i hf hd
  have hi := decodeWord_fetchWord hd
  refine ⟨fun hp => ?bare, fun r rest hp => ?pending⟩
  case bare =>
    exact (step_of_nil hp).trans (stepEvent_of_instr (s := s.setDraws (s.draws + 1)) _ hf hi)
  case pending =>
    exact (step_of_cons hp).trans (stepEvent_of_instr (s := s.setPending rest) r hf hi)

/-! Every Step ends. -/

theorem stepEvent_next (rnd : Byte) (s : State) : ∃ t, stepEvent rnd s = .next t := by
  cases hc : s.checkFetch with
  | raises kind info => exact ⟨_, stepEvent_of_raises rnd hc⟩
  | ok =>
    have hf := s.checkFetch_ok_iff.1 hc
    rcases decodeWord_cases s.fetchWord with ⟨i, hi⟩ | hu
    · obtain ⟨u, hexec⟩ := exec_next i (s.beginStep rnd).advancePc
      exact ⟨u.timerBookkeeping, by rw [stepEvent_of_instr rnd hf hi, hexec, endStep_next]⟩
    · exact ⟨_, stepEvent_of_unknown rnd hf hu⟩

theorem serve_next (e : Event) (s : State) : ∃ t, serve e s = .next t := by
  cases e with
  | step rnd => exact stepEvent_next rnd s
  | _ => exact ⟨_, rfl⟩

/-- Settles O13: with nothing pending the event is a Step, else the oldest pending one, and each ends in
a next state. -/
theorem everyEventEndsInANextState : Obligations.EveryEventEndsInANextState := by
  unfold Obligations.EveryEventEndsInANextState
  intro s
  cases hp : s.pending with
  | nil => exact step_of_nil hp ▸ stepEvent_next _ _
  | cons e rest => exact step_of_cons hp ▸ serve_next e _

/-! A Step that raises. -/

/-- A Step ends ok, or its error is raised from the state it began in (the fetch is refused) or from
the fetched state, and an instruction never raises the fetch's own error. -/
theorem stepEvent_ok_or_raised (h : stepEvent rnd s = .next t) :
    t.reply = .ok ∨ ∃ kind info,
      (s.checkFetch = .raises kind info ∧ t = (s.setRnd rnd).raise kind info) ∨
      (FetchOk s ∧ kind ≠ .invalidProgramCounter ∧
        t = (s.beginStep rnd).advancePc.raise kind info) := by
  cases hc : s.checkFetch with
  | raises kind info =>
    rw [stepEvent_of_raises rnd hc] at h
    exact .inr ⟨kind, info, .inl ⟨rfl, (Host.Outcome.next.inj h).symm⟩⟩
  | ok =>
    have hf := s.checkFetch_ok_iff.1 hc
    rcases decodeWord_cases s.fetchWord with ⟨i, hi⟩ | hu
    · obtain ⟨u, hexec, hout⟩ := exec_outcome i (s.beginStep rnd).advancePc
      rw [stepEvent_of_instr rnd hf hi, hexec, endStep_next] at h
      obtain rfl := Host.Outcome.next.inj h
      rcases hout with ⟨-, hr⟩ | ⟨-, kind, info, hk, rfl⟩
      · exact .inl (u.timerBookkeeping_reply.trans hr)
      · exact .inr ⟨kind, info, .inr ⟨hf, hk, State.timerBookkeeping_of_erred rfl⟩⟩
    · rw [stepEvent_of_unknown rnd hf hu] at h
      exact .inr ⟨_, _, .inr ⟨hf, by decide, (Host.Outcome.next.inj h).symm⟩⟩

/-- Settles O11: `stepEvent_ok_or_raised` names the state the error is raised from, and `raise` writes
the report alone. -/
theorem raisedErrorLeavesOnlyTheProgramCounter :
    Obligations.RaisedErrorLeavesOnlyTheProgramCounter := by
  unfold Obligations.RaisedErrorLeavesOnlyTheProgramCounter
  intro s t rnd r h hr
  rcases stepEvent_ok_or_raised h with hok | ⟨kind, info, ⟨hc, rfl⟩ | ⟨hf, -, rfl⟩⟩
  · simp [hok] at hr
  · obtain rfl := Reply.error.inj hr
    have hf : ¬ FetchOk s := fun hf => by simp [s.checkFetch_ok_iff.2 hf] at hc
    exact ⟨rfl, .inl ⟨hf, rfl⟩⟩
  · obtain rfl := Reply.error.inj hr
    exact ⟨rfl, .inr ⟨hf, rfl⟩⟩

/-! A refused fetch (R58): the bounds first, then the validity of `PC`. -/

theorem State.checkFetch_of_outOfBounds (h : 0xFFE < s.pc.toNat) :
    s.checkFetch = .raises .addressOutOfRange (BitVec.ofNat 16 (max s.pc.toNat 4096)) := by
  rcases s.checkFetch_cases with ⟨-, hle, -⟩ | ⟨hc, -⟩ | ⟨-, hle, -⟩
  · omega
  · exact hc
  · omega

theorem State.checkFetch_of_invalid (hle : s.pc.toNat ≤ 0xFFE)
    (hstrict : s.params.pcCheck = .strict) (h : s.pc.toNat % 2 = 1 ∨ s.pc.toNat < 0x200) :
    s.checkFetch = .raises .invalidProgramCounter s.pc := by
  rcases s.checkFetch_cases with ⟨-, -, hvalid⟩ | ⟨-, hgt⟩ | ⟨hc, -⟩
  · have := hvalid hstrict
    omega
  · omega
  · exact hc

theorem State.checkFetch_boundsOnly {kind : ErrorKind} {info : Word}
    (hbounds : s.params.pcCheck = .boundsOnly) (h : s.checkFetch = .raises kind info) :
    kind ≠ .invalidProgramCounter := by
  rcases s.checkFetch_cases with ⟨hc, -⟩ | ⟨hc, -⟩ | ⟨-, -, hstrict, -⟩
  · simp [hc] at h
  · rw [hc] at h
    rw [← (Checked.raises.inj h).1]
    decide
  · simp [hbounds] at hstrict

/-- Settles O10: what `CheckFetch` answers is what the Step reports; under BoundsOnly neither the check
nor, by `stepEvent_ok_or_raised`, what follows it raises InvalidProgramCounter. -/
theorem refusedFetchChangesNothing : Obligations.RefusedFetchChangesNothing := by
  unfold Obligations.RefusedFetchChangesNothing
  intro s rnd
  refine ⟨fun h => stepEvent_of_raises rnd (State.checkFetch_of_outOfBounds h),
    fun hle hstrict h => stepEvent_of_raises rnd (State.checkFetch_of_invalid hle hstrict h),
    fun hbounds t r h hr => ?_⟩
  rcases stepEvent_ok_or_raised h with hok | ⟨kind, info, ⟨hc, rfl⟩ | ⟨-, hk, rfl⟩⟩
  · simp [hok] at hr
  · obtain rfl := Reply.error.inj hr
    exact State.checkFetch_boundsOnly hbounds hc
  · obtain rfl := Reply.error.inj hr
    exact hk

end Sys2Proof.Machine
end

section
/-! The flag-writing instructions (spec/42_alu.md R80 to R84): what their two writes leave
(40_cycle.md R63), and the result and flag of each as numbers. -/

namespace Sys2Proof.Machine

variable {s : State} {x : Reg} {flag result : Byte}

/-! The two writes. -/

/-- The result survives unless it is written to `VF` first. -/
theorem State.readReg_writeFlagged_result
    (h : x ≠ regF ∨ s.params.vfWriteOrder = .flagThenResult) :
    (s.writeFlagged x flag result).readReg x = result := by
  rw [State.readReg_writeFlagged, if_pos rfl, if_neg]
  rintro ⟨hx, horder⟩
  simp [hx, horder] at h

/-- The flag survives unless the result is written over it. -/
theorem State.readReg_writeFlagged_flag
    (h : x ≠ regF ∨ s.params.vfWriteOrder = .resultThenFlag) :
    (s.writeFlagged x flag result).readReg regF = flag := by
  rw [State.readReg_writeFlagged]
  by_cases hx : x = regF
  · simp [hx, h.resolve_left (not_not_intro hx)]
  · rw [if_neg (Ne.symm hx), if_pos rfl]

theorem keepsRegsBut_writeFlagged : KeepsRegsBut [x, regF] s (s.writeFlagged x flag result) := by
  intro r hr
  obtain ⟨hx, hF⟩ : r ≠ x ∧ r ≠ regF := by simpa using hr
  rw [State.readReg_writeFlagged, if_neg hx, if_neg hF]

theorem keeps_writeFlagged : Keeps [.regs] s (s.writeFlagged x flag result) := by
  simp [Keeps]

/-! Results and flags as numbers. -/

theorem carryFlag_eq (a b : Byte) : carryFlag a b = if 255 < a.toNat + b.toNat then 1 else 0 := by
  simp [carryFlag, flagOf]

theorem noBorrowFlag_eq (a b : Byte) : noBorrowFlag a b = if b.toNat ≤ a.toNat then 1 else 0 := by
  simp [noBorrowFlag, flagOf]

theorem shrFlag_toNat (a : Byte) : (shrFlag a).toNat = a.toNat % 2 := by
  rw [shrFlag, BitVec.toNat_and]
  exact Nat.and_one_is_mod _

theorem shlFlag_toNat (a : Byte) : (shlFlag a).toNat = a.toNat / 128 := by
  have := a.isLt
  have hmod : (shlFlag a).toNat = (a >>> 7).toNat % 2 := shrFlag_toNat (a >>> 7)
  rw [hmod, BitVec.toNat_ushiftRight, Nat.shiftRight_eq_div_pow]
  omega

theorem toNat_sub_byte (a b : Byte) : (a - b).toNat = (a.toNat + 256 - b.toNat) % 256 := by
  bv_omega

theorem toNat_half_byte (a : Byte) : (a >>> 1).toNat = a.toNat / 2 := by
  rw [BitVec.toNat_ushiftRight, Nat.shiftRight_eq_div_pow, pow_one]

theorem toNat_double_byte (a : Byte) : (a <<< 1).toNat = 2 * a.toNat % 256 := by
  rw [BitVec.toNat_shiftLeft, Nat.shiftLeft_eq, pow_one, Nat.mul_comm]

/-- The shifted register is the one SHIFT_SOURCE names (R83). -/
theorem State.shiftOperand_eq {y src : Reg} (hx : s.params.shiftSource = .vx → src = x)
    (hy : s.params.shiftSource = .vy → src = y) : s.shiftOperand x y = s.readReg src := by
  unfold State.shiftOperand
  cases h : s.params.shiftSource with
  | vx => rw [hx h]
  | vy => rw [hy h]

/-! The five instructions. -/

/-- Settles O27: the two writes with the sum and the carry. -/
theorem addRegisterGivesSumAndCarry : Obligations.AddRegisterGivesSumAndCarry := by
  unfold Obligations.AddRegisterGivesSumAndCarry
  intro s x y
  exact ⟨_, rfl, fun h => by rw [State.readReg_writeFlagged_result h, BitVec.toNat_add],
    fun h => by rw [State.readReg_writeFlagged_flag h, carryFlag_eq],
    keepsRegsBut_writeFlagged, keeps_writeFlagged⟩

/-- Settles O28: the two writes with the difference and the no-borrow flag, the operands in either
order. -/
theorem subtractionsGiveDifferenceAndNoBorrow :
    Obligations.SubtractionsGiveDifferenceAndNoBorrow := by
  unfold Obligations.SubtractionsGiveDifferenceAndNoBorrow
  intro s x y
  refine ⟨⟨_, rfl, fun h => ?sub, fun h => ?subFlag, keepsRegsBut_writeFlagged, keeps_writeFlagged⟩,
    ⟨_, rfl, fun h => ?subn, fun h => ?subnFlag, keepsRegsBut_writeFlagged, keeps_writeFlagged⟩⟩
  case sub | subn => rw [State.readReg_writeFlagged_result h, toNat_sub_byte]
  case subFlag | subnFlag => rw [State.readReg_writeFlagged_flag h, noBorrowFlag_eq]

/-- Settles O29: the two writes with the shifted value and the bit shifted out, both of the register
SHIFT_SOURCE names. -/
theorem shiftsGiveHalfAndDoubleAndTheLostBit :
    Obligations.ShiftsGiveHalfAndDoubleAndTheLostBit := by
  unfold Obligations.ShiftsGiveHalfAndDoubleAndTheLostBit
  intro s x y src hvx hvy
  have hsrc : s.shiftOperand x y = s.readReg src := State.shiftOperand_eq hvx hvy
  refine ⟨⟨_, rfl, fun h => ?half, fun h => ?bit0, keepsRegsBut_writeFlagged, keeps_writeFlagged⟩,
    ⟨_, rfl, fun h => ?double, fun h => ?bit7, keepsRegsBut_writeFlagged, keeps_writeFlagged⟩⟩
  case half => rw [State.readReg_writeFlagged_result h, toNat_half_byte, hsrc]
  case bit0 => rw [State.readReg_writeFlagged_flag h, shrFlag_toNat, hsrc]
  case double => rw [State.readReg_writeFlagged_result h, toNat_double_byte, hsrc]
  case bit7 => rw [State.readReg_writeFlagged_flag h, shlFlag_toNat, hsrc]

end Sys2Proof.Machine
end

section
/-! TIMER_MODE is read by the closing bookkeeping alone (spec/40_cycle.md R64): every instruction
commutes with a change of it. -/

namespace Sys2Proof.Machine

open Config

variable {i : Instr} {s t u u' : State} {m : TimerMode}

/-- The state under another TIMER_MODE. -/
def State.setTimerMode (s : State) (m : TimerMode) : State :=
  { s with params := { s.params with timerMode := m } }

theorem State.skipIf_setTimerMode (s : State) (c : Bool) (m : TimerMode) :
    (s.setTimerMode m).skipIf c = (s.skipIf c).setTimerMode m := by
  cases c <;> rfl

theorem State.writeFlagged_setTimerMode (s : State) (x : Reg) (flag result : Byte) (m : TimerMode) :
    (s.setTimerMode m).writeFlagged x flag result
      = (s.writeFlagged x flag result).setTimerMode m := by
  unfold State.writeFlagged
  rw [show (s.setTimerMode m).params.vfWriteOrder = s.params.vfWriteOrder from rfl]
  split <;> rfl

theorem next_setTimerMode (hu : u' = u.setTimerMode m) (h : (.next u : Result) = .next t) :
    (.next u' : Result) = .next (t.setTimerMode m) := by
  rw [hu, Host.Outcome.next.inj h]

/-- A handler whose check does not depend on TIMER_MODE. -/
theorem conclude_setTimerMode {α : Type} {c : Checked α} {f f' : α → State}
    (hf : ∀ a, f' a = (f a).setTimerMode m) (h : conclude c s f = .next t) :
    conclude c (s.setTimerMode m) f' = .next (t.setTimerMode m) := by
  rcases conclude_cases h with ⟨a, rfl, rfl⟩ | ⟨kind, info, rfl, rfl⟩
  · rw [conclude_ok, hf]
  · rfl

/-- Any instruction runs the same under any TIMER_MODE. -/
theorem exec_setTimerMode (h : exec i s = .next t) :
    exec i (s.setTimerMode m) = .next (t.setTimerMode m) := by
  cases i with
  | ret =>
    by_cases hsp : s.sp.val = 0
    · simp only [exec, execRet, s.pop_empty _ hsp, (s.setTimerMode m).pop_empty _ hsp] at h ⊢
      exact next_setTimerMode rfl h
    · simp only [exec, execRet, s.pop_ok _ hsp, (s.setTimerMode m).pop_ok _ hsp] at h ⊢
      exact next_setTimerMode rfl h
  | call nnn =>
    by_cases hsp : s.sp.val < 16
    · simp only [exec, execCall, s.push_ok _ _ hsp, (s.setTimerMode m).push_ok _ _ hsp] at h ⊢
      exact next_setTimerMode rfl h
    · simp only [exec, execCall, s.push_full _ _ hsp, (s.setTimerMode m).push_full _ _ hsp] at h ⊢
      exact next_setTimerMode rfl h
  | seImm | sneImm | seReg | sneReg => exact next_setTimerMode (s.skipIf_setTimerMode _ m) h
  | addReg | subReg | shr | subnReg | shl =>
    exact next_setTimerMode (s.writeFlagged_setTimerMode _ _ _ m) h
  | skp | sknp => exact conclude_setTimerMode (fun _ => s.skipIf_setTimerMode _ m) h
  | drw | ldB | ldMemVx | ldVxMem => exact conclude_setTimerMode (fun _ => rfl) h
  | _ => exact next_setTimerMode rfl h

/-- Settles O43: where the Step raises before any handler runs, no bookkeeping follows; else the handler
runs the same by `exec_setTimerMode`, and the Tick is PerStep's bookkeeping of one that completed. -/
theorem perStepIsExternalThenTick : Obligations.PerStepIsExternalThenTick := by
  unfold Obligations.PerStepIsExternalThenTick
  intro s rnd hmode
  cases hc : s.checkFetch with
  | raises kind info =>
    exact ⟨_, stepEvent_of_raises (s := s.setTimerMode .external) rnd hc,
      stepEvent_of_raises rnd hc⟩
  | ok =>
    have hf : FetchOk s := s.checkFetch_ok_iff.1 hc
    rcases decodeWord_cases s.fetchWord with ⟨i, hi⟩ | hu
    · obtain ⟨u, hexec, hout⟩ := exec_outcome i (s.beginStep rnd).advancePc
      have hparams : u.params = s.params := exec_params (s := (s.beginStep rnd).advancePc) hexec
      have hstep : stepEvent rnd s = .next u.timerBookkeeping := by
        rw [stepEvent_of_instr rnd hf hi, hexec, endStep_next]
      have hexecE : exec i ((s.setTimerMode .external).beginStep rnd).advancePc
          = .next (u.setTimerMode .external) :=
        exec_setTimerMode hexec
      have hstepE : stepEvent rnd (s.setTimerMode .external) = .next (u.setTimerMode .external) := by
        rw [stepEvent_of_instr (s := s.setTimerMode .external) rnd hf hi, hexecE, endStep_next,
          State.timerBookkeeping_external rfl]
      refine ⟨_, hstepE, hstep.trans (congrArg _ ?_)⟩
      rcases hout with ⟨-, hr⟩ | ⟨-, kind, info, -, rfl⟩
      · rw [State.timerBookkeeping_perStep (hparams ▸ hmode) hr,
          State.erred_of_ok (s := u.setTimerMode .external) hr, ← hparams]
        rfl
      · rw [State.timerBookkeeping_of_erred rfl, ← hparams]
        rfl
    · exact ⟨_, stepEvent_of_unknown (s := s.setTimerMode .external) rnd hf hu,
        stepEvent_of_unknown rnd hf hu⟩

end Sys2Proof.Machine
end

section
/-! Control transfer (spec/41_flow.md): the jump targets as numbers, what CALL and RET do below and at
their bound of the stack, and the compare skips. -/

namespace Sys2Proof.Machine

variable {s : State} {nnn : Addr12}

/-! Jumps. -/

theorem toNat_zextNnn (nnn : Addr12) : (zextNnn nnn).toNat = nnn.toNat := by
  have := nnn.isLt
  simp only [zextNnn, BitVec.toNat_setWidth]
  omega

/-- The sum of JP V0,nnn does not wrap: it is at most `0xFFF + 0xFF` (R73). -/
theorem toNat_zextNnn_add_zextByte (nnn : Addr12) (b : Byte) :
    (zextNnn nnn + zextByte b).toNat = nnn.toNat + b.toNat := by
  have := nnn.isLt
  have := b.isLt
  simp only [zextNnn, zextByte, BitVec.toNat_add, BitVec.toNat_setWidth]
  omega

/-- The opcode of CALL as a number, as StackOverflow reports it (R107). -/
theorem encode_call (nnn : Addr12) : encode (.call nnn) = BitVec.ofNat 16 (0x2000 + nnn.toNat) := by
  have := nnn.isLt
  apply BitVec.eq_of_toNat_eq
  rw [encode, encNNN_toNat, BitVec.toNat_ofNat, Nat.mod_eq_of_lt (by omega)]
  rfl

/-! CALL and RET. -/

theorem exec_call_of_lt (h : s.sp.val < 16) :
    exec (.call nnn) s = .next (((s.setStack (s.stack.set s.sp.val s.pc)).setSp
      ⟨s.sp.val + 1, by omega⟩).setPc (zextNnn nnn)) := by
  simp only [exec, execCall, s.push_ok _ _ h, conclude_ok]

theorem exec_call_of_full (h : s.sp.val = 16) :
    exec (.call nnn) s = .next (s.raise .stackOverflow (encode (.call nnn))) := by
  simp only [exec, execCall, s.push_full _ _ (by omega), conclude_raises]

theorem exec_ret_of_ne (h : s.sp.val ≠ 0) :
    exec .ret s = .next ((s.setSp ⟨s.sp.val - 1, by omega⟩).setPc s.stack[s.sp.val - 1]) := by
  simp only [exec, execRet, s.pop_ok _ h, conclude_ok]

theorem exec_ret_of_empty (h : s.sp.val = 0) :
    exec .ret s = .next (s.raise .stackUnderflow (encode .ret)) := by
  simp only [exec, execRet, s.pop_empty _ h, conclude_raises]

/-- Settles O34: below depth 16 the push is written out by `exec_call_of_lt`; at depth 16 `raise` writes
the report alone. -/
theorem callPushesReturnAddressOrOverflows : Obligations.CallPushesReturnAddressOrOverflows := by
  unfold Obligations.CallPushesReturnAddressOrOverflows
  intro s nnn
  refine ⟨fun h => ⟨_, exec_call_of_lt h, toNat_zextNnn nnn, rfl, fun k => ?cell, ?frame⟩,
    fun h => ?full⟩
  case cell =>
    by_cases hk : k.val = s.sp.val
    · simp [hk]
    · simp [hk, Ne.symm hk]
  case frame => simp [Keeps]
  case full =>
    rw [exec_call_of_full h, encode_call]
    rfl

/-- Settles O35: above depth 0 the pop is written out by `exec_ret_of_ne`; at depth 0 `raise` writes the
report alone. -/
theorem returnPopsOrUnderflows : Obligations.ReturnPopsOrUnderflows := by
  unfold Obligations.ReturnPopsOrUnderflows
  intro s
  refine ⟨fun h => ⟨_, exec_ret_of_ne h, ?depth, fun k hk => ?target, ?frame⟩, exec_ret_of_empty⟩
  case depth => exact Nat.sub_add_cancel (Nat.pos_of_ne_zero h)
  case target =>
    have hk : s.sp.val - 1 = k.val := by omega
    simp [hk]
  case frame => simp [Keeps]

/-- Settles O36: RET pops the cell CALL wrote, one below the depth CALL left. -/
theorem callThenReturnRestoresPcAndDepth : Obligations.CallThenReturnRestoresPcAndDepth := by
  unfold Obligations.CallThenReturnRestoresPcAndDepth
  intro s nnn h
  refine ⟨_, exec_call_of_lt h, fun u hsp hstack => ?_⟩
  have hdepth : u.sp.val = s.sp.val + 1 := congrArg Fin.val hsp
  refine ⟨_, exec_ret_of_ne (by omega), ?pc, Fin.ext ?sp⟩
  case pc => simp [hdepth, hstack]
  case sp => simp [hdepth]

/-- Settles O32: a bad target is what the next Step's fetch check refuses. -/
theorem jumpAcceptsEveryTarget : Obligations.JumpAcceptsEveryTarget := by
  unfold Obligations.JumpAcceptsEveryTarget
  intro s nnn rnd
  have hpc : (s.setPc (zextNnn nnn)).pc.toNat = nnn.toNat := toNat_zextNnn nnn
  refine ⟨s.setPc (zextNnn nnn), rfl, hpc, exec_keeps (i := .jp nnn) rfl, fun htop => ?top,
    fun htop hstrict hbad => ?invalid⟩
  case top =>
    have hout : 0xFFE < (s.setPc (zextNnn nnn)).pc.toNat := by omega
    refine ⟨_, stepEvent_of_raises rnd (State.checkFetch_of_outOfBounds hout), ?_⟩
    rw [hpc, htop]
    rfl
  case invalid =>
    have hin : (s.setPc (zextNnn nnn)).pc.toNat ≤ 0xFFE := by
      have := nnn.isLt
      omega
    exact ⟨_, stepEvent_of_raises rnd
      (State.checkFetch_of_invalid hin hstrict (by rwa [hpc])), rfl⟩

/-- Settles O33: the target is a 16-bit sum that does not wrap. -/
theorem jumpAddsRegisterZeroWithoutWrap : Obligations.JumpAddsRegisterZeroWithoutWrap := by
  unfold Obligations.JumpAddsRegisterZeroWithoutWrap
  intro s nnn
  exact ⟨_, rfl, toNat_zextNnn_add_zextByte nnn _, toNat_zextNnn_add_zextByte_le nnn _,
    exec_keeps (i := .jpV0 nnn) rfl⟩

/-! The compare skips. -/

theorem State.skipIf_beq_pc (s : State) (a b : Byte) :
    (s.skipIf (a == b)).pc = if a = b then s.pc + 2 else s.pc := by
  simp only [State.skipIf_pc, beq_iff_eq]

theorem State.skipIf_bne_pc (s : State) (a b : Byte) :
    (s.skipIf (a != b)).pc = if a = b then s.pc else s.pc + 2 := by
  simp only [State.skipIf_pc, bne_iff_ne, ne_eq, ite_not]

/-- Settles O37: each compare skip is `skipIf` of its condition, and its frame is `exec_keeps`. -/
theorem compareSkipsMoveOnlyThePc : Obligations.CompareSkipsMoveOnlyThePc := by
  unfold Obligations.CompareSkipsMoveOnlyThePc
  intro s x y kk
  exact ⟨⟨_, rfl, exec_keeps (i := .seImm x kk) rfl, s.skipIf_beq_pc _ _⟩,
    ⟨_, rfl, exec_keeps (i := .sneImm x kk) rfl, s.skipIf_bne_pc _ _⟩,
    ⟨_, rfl, exec_keeps (i := .seReg x y) rfl, s.skipIf_beq_pc _ _⟩,
    ⟨_, rfl, exec_keeps (i := .sneReg x y) rfl, s.skipIf_bne_pc _ _⟩⟩

end Sys2Proof.Machine
end

section
/-! Loads, arithmetic and logic that write one register (spec/42_alu.md R74 to R79, R85), and the exact
sums and differences of the flag-writing ones (R86). -/

namespace Sys2Proof.Machine

theorem keepsRegsBut_writeReg (s : State) (x : Reg) (b : Byte) :
    KeepsRegsBut [x] s (s.writeReg x b) := by
  intro r hr
  exact s.readReg_writeReg_of_ne b (List.mem_singleton.not.1 hr)

/-! One register written: its value is `readReg_writeReg_self`, the frame `keepsRegsBut_writeReg` within
the registers and `exec_keeps` beyond them. -/

/-- Settles O24: each is a write of one register. -/
theorem loadImmediateAndCopyWriteOneRegister : Obligations.LoadImmediateAndCopyWriteOneRegister := by
  unfold Obligations.LoadImmediateAndCopyWriteOneRegister
  intro s x y kk
  exact ⟨⟨_, rfl, s.readReg_writeReg_self x kk, keepsRegsBut_writeReg s x _,
      exec_keeps (i := .ldImm x kk) rfl⟩,
    ⟨_, rfl, s.readReg_writeReg_self x _, keepsRegsBut_writeReg s x _,
      exec_keeps (i := .ldReg x y) rfl⟩⟩

/-- Settles O25: the one register written gets the 8-bit sum. -/
theorem addImmediateWrapsAndSparesTheFlag : Obligations.AddImmediateWrapsAndSparesTheFlag := by
  unfold Obligations.AddImmediateWrapsAndSparesTheFlag
  intro s x kk
  refine ⟨_, rfl, ?sum, keepsRegsBut_writeReg s x _, exec_keeps (i := .addImm x kk) rfl⟩
  case sum => rw [State.readReg_writeReg_self, BitVec.toNat_add]

/-- Settles O26: the one register written gets the bitwise combination; `VF` is in the frame. -/
theorem logicalOperationsCombineBits : Obligations.LogicalOperationsCombineBits := by
  unfold Obligations.LogicalOperationsCombineBits
  intro s x y
  refine ⟨⟨_, rfl, keepsRegsBut_writeReg s x _, exec_keeps (i := .orReg x y) rfl, fun k _ => ?or⟩,
    ⟨_, rfl, keepsRegsBut_writeReg s x _, exec_keeps (i := .andReg x y) rfl, fun k _ => ?and⟩,
    ⟨_, rfl, keepsRegsBut_writeReg s x _, exec_keeps (i := .xorReg x y) rfl, fun k _ => ?xor⟩⟩
  case or => rw [State.readReg_writeReg_self, BitVec.getLsbD_or]
  case and => rw [State.readReg_writeReg_self, BitVec.getLsbD_and]
  case xor => rw [State.readReg_writeReg_self, BitVec.getLsbD_xor]

/-- Settles O31: the one register written gets the Step's argument masked by `kk`. -/
theorem randomByteIsMasked : Obligations.RandomByteIsMasked := by
  unfold Obligations.RandomByteIsMasked
  intro s x kk
  refine ⟨_, rfl, fun k _ => ?bit, keepsRegsBut_writeReg s x _, exec_keeps (i := .rnd x kk) rfl⟩
  case bit => rw [State.readReg_writeReg_self, BitVec.getLsbD_and]

/-! Result and flag together. -/

/-- Settles O30: for `x` other than 15 both writes of ADD (O27) and of SUB (O28) survive; the carry is
the 256 the sum lost, and a missing flag the 256 the difference borrowed. -/
theorem flagMakesSumsAndDifferencesExact : Obligations.FlagMakesSumsAndDifferencesExact := by
  unfold Obligations.FlagMakesSumsAndDifferencesExact
  intro s t x y hx
  refine ⟨fun h => ?sum, fun h => ?difference⟩
  case sum =>
    obtain ⟨u, hu, hsum, hcarry, -⟩ := addRegisterGivesSumAndCarry s x y
    obtain rfl : u = t := Host.Outcome.next.inj (hu.symm.trans h)
    rw [hsum (.inl hx), hcarry (.inl hx)]
    split <;> bv_omega
  case difference =>
    obtain ⟨⟨u, hu, hdiff, hflag, -⟩, -⟩ := subtractionsGiveDifferenceAndNoBorrow s x y
    obtain rfl : u = t := Host.Outcome.next.inj (hu.symm.trans h)
    rw [hdiff (.inl hx), hflag (.inl hx)]
    split <;> bv_omega

end Sys2Proof.Machine
end

section
/-! The index register and the accesses at `I` (spec/43_index_memory.md R87 to R93): the range check
in terms of the last address accessed, and what the stores and the block load leave. -/

namespace Sys2Proof.Machine

open Config

variable {s : State} {x : Reg}

/-! The index register as a number. -/

theorem toNat_add_zextByte (a : Word) (b : Byte) :
    (a + zextByte b).toNat = (a.toNat + b.toNat) % 65536 := by
  have := b.isLt
  simp only [zextByte, BitVec.toNat_add, BitVec.toNat_setWidth]
  omega

/-- The glyph address does not wrap: it is at most `0x050 + 5 * 0xFF` (R90). -/
theorem toNat_glyphAddr (a : Byte) : (glyphAddr a).toNat = 0x050 + 5 * a.toNat := by
  have := a.isLt
  rw [glyphAddr, BitVec.toNat_ofNat]
  unfold glyphBase
  omega

/-- Settles O44: `I` is the zero-extended immediate, and the frame is `exec_keeps`. -/
theorem loadIndexWritesTheImmediate : Obligations.LoadIndexWritesTheImmediate := by
  unfold Obligations.LoadIndexWritesTheImmediate
  intro s nnn
  exact ⟨_, rfl, toNat_zextNnn nnn, exec_keeps (i := .ldI nnn) rfl⟩

/-- Settles O45: the sum and the glyph address as numbers, and the frame of each is `exec_keeps`. -/
theorem indexArithmeticIsSixteenBits : Obligations.IndexArithmeticIsSixteenBits := by
  unfold Obligations.IndexArithmeticIsSixteenBits
  intro s x
  exact ⟨⟨_, rfl, toNat_add_zextByte _ _, exec_keeps (i := .addI x) rfl⟩,
    ⟨_, rfl, toNat_glyphAddr _, exec_keeps (i := .ldF x) rfl⟩⟩

/-! The range check of an access whose last byte is at `I + n` (R87). -/

theorem State.checkRange_of_last_lt {n : Nat} (h : s.effAddr n < memSize) :
    s.checkRange (n + 1) = .ok () :=
  s.checkRange_ok (.inr h)

/-- A handler whose range ends outside memory raises, whatever it would have written. -/
theorem conclude_checkRange_of_le_last {n : Nat} (h : 4096 ≤ s.effAddr n) (f : Unit → State) :
    conclude (s.checkRange (n + 1)) s f =
      .next (s.raise .addressOutOfRange (BitVec.ofNat 16 (max s.index.toNat 4096))) := by
  rw [s.checkRange_raises n.succ_pos (Nat.lt_succ_of_le h), conclude_raises]

/-- Settles O49: the four handlers are each one range check, of 3, `x + 1`, `x + 1` and `n` bytes, and
`raise` writes the report alone. -/
theorem rangePastMemoryRaisesAndWritesNothing :
    Obligations.RangePastMemoryRaisesAndWritesNothing := by
  unfold Obligations.RangePastMemoryRaisesAndWritesNothing
  intro s
  refine ⟨fun x h => conclude_checkRange_of_le_last h _,
    fun x h => conclude_checkRange_of_le_last h _,
    fun x h => conclude_checkRange_of_le_last h _, fun x y n hn h => ?drw⟩
  case drw =>
    obtain ⟨m, rfl⟩ : ∃ m, n = m + 1 := Nat.exists_eq_add_one.2 hn
    exact conclude_checkRange_of_le_last h _

/-! The stores. -/

theorem keeps_setBytes (a : Nat) (bs : List Byte) : Keeps [.mem] s (s.setBytes a bs) := by
  simp [Keeps]

theorem keepsBytesOutside_setBytes (a : Nat) (bs : List Byte) :
    KeepsBytesOutside a bs.length s (s.setBytes a bs) :=
  fun _ hb => s.byteAt_setBytes_outside bs hb

/-- LD B with its range inside memory stores the three digits and nothing else (R91). -/
theorem exec_ldB_eq (h : s.effAddr 2 < memSize) :
    exec (.ldB x) s = .next (s.setBytes (s.effAddr 0) (bcdDigits (s.readReg x))) := by
  simp only [exec, execLdB, State.checkRange_of_last_lt h, conclude_ok]

/-- After a store of three digits at `I` the byte at `I + k` is digit `k`. -/
theorem State.byteAt_storedDigits (hP : MemoryCanonical s) (h : s.effAddr 2 < memSize) (a : Byte)
    {k : Nat} (hk : k < (bcdDigits a).length) :
    (s.setBytes (s.effAddr 0) (bcdDigits a)).byteAt (s.effAddr k) = (bcdDigits a)[k] :=
  s.byteAt_setBytes_inside hP _ hk h

/-- A number up to a byte's value is stored whole. -/
theorem toNat_ofNat_of_le_byte {a : Byte} {n : Nat} (h : n ≤ a.toNat) :
    (BitVec.ofNat 8 n).toNat = n :=
  Nat.mod_eq_of_lt (h.trans_lt a.isLt)

/-- Settles O46: the store is written out by `exec_ldB_eq`, its three bytes are the digits, and each
digit fits a byte. -/
theorem decimalStoreWritesThreeDigits : Obligations.DecimalStoreWritesThreeDigits := by
  unfold Obligations.DecimalStoreWritesThreeDigits
  intro s x hP h
  have digit (k : Nat) (hk : k < 3) := State.byteAt_storedDigits hP h (s.readReg x) hk
  refine ⟨_, exec_ldB_eq h, ?hundreds, ?tens, ?ones,
    keepsBytesOutside_setBytes _ (bcdDigits _), keeps_setBytes _ _⟩
  case hundreds =>
    rw [digit 0 (by decide)]
    exact toNat_ofNat_of_le_byte (Nat.div_le_self _ _)
  case tens =>
    rw [digit 1 (by decide)]
    exact toNat_ofNat_of_le_byte ((Nat.mod_le _ _).trans (Nat.div_le_self _ _))
  case ones =>
    rw [digit 2 (by decide)]
    exact toNat_ofNat_of_le_byte (Nat.mod_le _ _)

/-- Settles O47: the store is written out by `exec_ldMemVx_eq`, and its bytes are the registers by
`byteAt_storedBlock`. -/
theorem blockStoreWritesRegistersInOrder : Obligations.BlockStoreWritesRegistersInOrder := by
  unfold Obligations.BlockStoreWritesRegistersInOrder
  intro s x hP hx
  refine ⟨_, exec_ldMemVx_eq hx, fun k hk => State.byteAt_storedBlock hP hx hk, ?outside,
    keeps_setBytes _ _⟩
  case outside =>
    rw [← s.readBlock_length x]
    exact keepsBytesOutside_setBytes _ _

/-! The block load. -/

theorem keeps_setV (v : Vector Byte 16) : Keeps [.regs] s (s.setV v) := by
  simp [Keeps]

/-- LD Vx,[I] with its range inside memory replaces registers from `V0` up by the bytes at `I` and
nothing else (R93). -/
theorem exec_ldVxMem_eq (hx : s.effAddr x.val < memSize) :
    exec (.ldVxMem x) s =
      .next (s.setV (writeBlock s.v 0 (s.bytesAt (s.effAddr 0) (x.val + 1)))) := by
  simp only [exec, execLdVxMem, State.checkRange_of_last_lt hx, conclude_ok]

/-- A register after a load of `n` bytes from `a` on into the registers from `V0` up. -/
theorem State.readReg_loadedBlock (s : State) (a n : Nat) (k : Reg) :
    (s.setV (writeBlock s.v 0 (s.bytesAt a n))).readReg k =
      if k.val < n then s.byteAt (a + k.val) else s.readReg k := by
  refine (writeBlock_get s.v 0 (s.bytesAt a n) k).trans ?_
  simp only [Nat.zero_le, true_and, Nat.zero_add, Nat.sub_zero, State.bytesAt_length,
    State.bytesAt_getElem, dite_eq_ite]
  rfl

/-- Settles O48: the load is written out by `exec_ldVxMem_eq`, and `readReg_loadedBlock` is what it
leaves in the registers up to `x` and above. -/
theorem blockLoadReadsRegistersInOrder : Obligations.BlockLoadReadsRegistersInOrder := by
  unfold Obligations.BlockLoadReadsRegistersInOrder
  intro s x hx
  refine ⟨_, exec_ldVxMem_eq hx, fun k hk => ?loaded, fun k hk => ?above, keeps_setV _⟩
  case loaded =>
    rw [State.readReg_loadedBlock, if_pos (Nat.lt_succ_of_le hk)]
    rfl
  case above => rw [State.readReg_loadedBlock, if_neg (Nat.not_lt.2 hk)]

end Sys2Proof.Machine
end

section
/-! The display instructions (spec/44_display.md R94 to R97): CLS, and DRW as the one state `drawn` read
cell by cell through `compose_pixel` and `compose_hit`. -/

namespace Sys2Proof.Machine

variable {s t : State} {x y : Reg} {n row col : Nat}

/-- Settles O51: the new framebuffer is 32 rows of 0, and the frame is `exec_keeps`. -/
theorem clearScreenZeroesEveryPixel : Obligations.ClearScreenZeroesEveryPixel := by
  unfold Obligations.ClearScreenZeroesEveryPixel
  intro s
  exact ⟨_, rfl, fun row col _ _ => Framebuffer.pixel_replicate_zero row col,
    exec_keeps (i := .cls) rfl⟩

/-! The flag as a condition. -/

theorem flagOf_eq_one_iff {c : Bool} : flagOf c = 1 ↔ c = true := by
  cases c <;> decide

theorem flagOf_eq_zero_iff {c : Bool} : flagOf c = 0 ↔ c = false := by
  cases c <;> decide

/-! The sprite. -/

/-- A sprite pixel lies in the sprite's box (R97(d)). -/
theorem State.spritePixel_in_box (h : s.spritePixel x y n row col = true) :
    ((s.readReg y).toNat % 32 ≤ row ∧ row < (s.readReg y).toNat % 32 + n) ∧
      (s.readReg x).toNat % 64 ≤ col ∧ col < (s.readReg x).toNat % 64 + 8 := by
  simp only [State.spritePixel, Bool.and_eq_true, decide_eq_true_eq] at h
  obtain ⟨⟨hy, hyn, hx, hx8⟩, -⟩ := h
  exact ⟨⟨hy, hyn⟩, hx, hx8⟩

/-- The sprite depends on the coordinate registers, `I` and memory only. -/
theorem State.spritePixel_congr (hx : t.readReg x = s.readReg x) (hy : t.readReg y = s.readReg y)
    (hindex : t.index = s.index) (hmem : ∀ a, t.byteAt a = s.byteAt a) :
    t.spritePixel x y n row col = s.spritePixel x y n row col := by
  simp only [State.spritePixel, hx, hy, hindex, hmem]

/-- The cells of the sprite's box, the part past the frame's edge among them (R97(d)). -/
def State.spriteBox (s : State) (x y : Reg) (n : Nat) : Finset (Nat × Nat) :=
  Finset.Ico (originRow (s.readReg y)) (originRow (s.readReg y) + n) ×ˢ
    Finset.Ico (originCol (s.readReg x)) (originCol (s.readReg x) + 8)

theorem State.card_spriteBox (s : State) (x y : Reg) (n : Nat) : (s.spriteBox x y n).card = 8 * n := by
  rw [State.spriteBox, Finset.card_product, Nat.card_Ico, Nat.card_Ico, Nat.add_sub_cancel_left,
    Nat.add_sub_cancel_left, Nat.mul_comm]

theorem State.mem_spriteBox_of_spritePixel (h : s.spritePixel x y n row col = true) :
    (row, col) ∈ s.spriteBox x y n := by
  rw [State.spriteBox, Finset.mem_product, Finset.mem_Ico, Finset.mem_Ico]
  exact State.spritePixel_in_box h

/-- The sprite has at most 8 unclipped pixels a row (R97(e)). -/
theorem State.card_spritePixel_le (s : State) (x y : Reg) (n : Nat) :
    ((Finset.range 32 ×ˢ Finset.range 64).filter fun p =>
      s.spritePixel x y n p.1 p.2 = true).card ≤ 8 * n := by
  rw [← s.card_spriteBox x y n]
  refine Finset.card_le_card fun p hp => ?_
  exact State.mem_spriteBox_of_spritePixel (Finset.mem_filter.1 hp).2

/-! The draw. -/

/-- The sprite composed onto the framebuffer, with the collision that reports (R96). -/
def State.composed (s : State) (x y : Reg) (n : Nat) : Framebuffer × Bool :=
  compose (originCol (s.readReg x)) (s.bytesAt (s.effAddr 0) n) (originRow (s.readReg y)) s.fb

/-- The state a DRW with its sprite inside memory leaves (R96). -/
def State.drawn (s : State) (x y : Reg) (n : Nat) : State :=
  (s.setFb (s.composed x y n).1).writeReg regF (flagOf (s.composed x y n).2)

theorem exec_drw_eq (h : HandlerOk (.drw x y n) s) :
    exec (.drw x y n) s = .next (s.drawn x y n) := by
  simp only [exec, execDrw, State.checkRange_ok _ h, conclude_ok]
  rfl

theorem eq_drawn_of_exec_drw (h : HandlerOk (.drw x y n) s) (ht : exec (.drw x y n) s = .next t) :
    t = s.drawn x y n :=
  Host.Outcome.next.inj (ht.symm.trans (exec_drw_eq h))

theorem keeps_drawn : Keeps [.fb, .regs] s (s.drawn x y n) := by
  simp [Keeps, State.drawn]

theorem keepsRegsBut_drawn : KeepsRegsBut [regF] s (s.drawn x y n) :=
  keepsRegsBut_writeReg (s.setFb _) regF _

/-- DRW XORs the sprite pixel onto each cell (R97(a)). -/
theorem State.pixel_drawn (hr : row < 32) (hc : col < 64) :
    Framebuffer.pixel (s.drawn x y n).fb row col =
      (Framebuffer.pixel s.fb row col ^^ s.spritePixel x y n row col) := by
  rw [← cellOf_eq_spritePixel s x y n row col hc]
  exact compose_pixel _ _ _ _ _ _ hr

/-- A cell is changed exactly where the sprite has a pixel. -/
theorem State.pixel_drawn_ne_iff (hr : row < 32) (hc : col < 64) :
    Framebuffer.pixel (s.drawn x y n).fb row col ≠ Framebuffer.pixel s.fb row col ↔
      s.spritePixel x y n row col = true := by
  rw [State.pixel_drawn hr hc]
  cases Framebuffer.pixel s.fb row col <;> simp

/-- The composition collides when a sprite pixel falls on a cell that is 1 (R97(b)). -/
theorem State.composed_hit_iff :
    (s.composed x y n).2 = true ↔ ∃ row col, row < 32 ∧ col < 64 ∧
      Framebuffer.pixel s.fb row col = true ∧ s.spritePixel x y n row col = true := by
  refine (compose_hit _ _ _ _).trans ?_
  refine exists_congr fun row => exists_congr fun col => and_congr_right fun _ =>
    and_congr_right fun hc => ?_
  rw [cellOf_eq_spritePixel s x y n row col hc]

/-- The same, in terms of the cells before and after: some cell goes from 1 to 0. -/
theorem State.composed_hit_iff_cleared :
    (s.composed x y n).2 = true ↔ ∃ row col, row < 32 ∧ col < 64 ∧
      Framebuffer.pixel s.fb row col = true ∧
      Framebuffer.pixel (s.drawn x y n).fb row col = false := by
  refine State.composed_hit_iff.trans ?_
  refine exists_congr fun row => exists_congr fun col => and_congr_right fun hr =>
    and_congr_right fun hc => and_congr_right fun hset => ?_
  rw [State.pixel_drawn hr hc, hset, Bool.true_xor, Bool.not_eq_false']

theorem State.readReg_drawn_regF :
    (s.drawn x y n).readReg regF = flagOf (s.composed x y n).2 :=
  State.readReg_writeReg_self _ _ _

/-- Settles O52: the cells are `pixel_drawn`, the flag `composed_hit_iff_cleared`. -/
theorem drawXorsTheClippedSprite : Obligations.DrawXorsTheClippedSprite := by
  unfold Obligations.DrawXorsTheClippedSprite
  intro s x y n h
  refine ⟨s.drawn x y n, exec_drw_eq h, fun row col => State.pixel_drawn, fun hit => ?one,
    fun miss => ?zero, keepsRegsBut_drawn, keeps_drawn⟩
  case one =>
    rw [State.readReg_drawn_regF, flagOf_eq_one_iff]
    exact State.composed_hit_iff_cleared.2 hit
  case zero =>
    rw [State.readReg_drawn_regF, flagOf_eq_zero_iff, ← Bool.not_eq_true]
    exact miss ∘ State.composed_hit_iff_cleared.1

/-- Settles O53: the second DRW lays the same sprite, so the two XORs cancel; it collides where the
first one set a cell. -/
theorem drawingTwiceRestoresTheFramebuffer : Obligations.DrawingTwiceRestoresTheFramebuffer := by
  unfold Obligations.DrawingTwiceRestoresTheFramebuffer
  intro s t x y n h ht hx hy
  obtain rfl := eq_drawn_of_exec_drw h ht
  have frame : Keeps [.fb, .regs] s (s.drawn x y n) := keeps_drawn
  have hindex : (s.drawn x y n).index = s.index := frame.index (by decide)
  have h' : HandlerOk (.drw x y n) (s.drawn x y n) := by rwa [HandlerOk, hindex]
  have sprite : ∀ row col,
      (s.drawn x y n).spritePixel x y n row col = s.spritePixel x y n row col := fun row col =>
    State.spritePixel_congr hx hy hindex (frame.byteAt (by decide))
  refine ⟨_, exec_drw_eq h', Framebuffer.ext_pixel fun row col hr hc => ?restored, ?collision⟩
  case restored =>
    rw [State.pixel_drawn hr hc, State.pixel_drawn hr hc, sprite, Bool.xor_assoc, Bool.xor_self,
      Bool.xor_false]
  case collision =>
    rw [State.readReg_drawn_regF, flagOf_eq_one_iff, State.composed_hit_iff]
    refine exists_congr fun row => exists_congr fun col => and_congr_right fun hr =>
      and_congr_right fun hc => ?_
    rw [State.pixel_drawn hr hc, sprite]
    cases s.spritePixel x y n row col <;> simp

/-- Settles O54: the cells changed are the sprite's pixels (`pixel_drawn_ne_iff`), which lie in the
box and number at most 8 a row. -/
theorem spriteStaysInItsBox : Obligations.SpriteStaysInItsBox := by
  unfold Obligations.SpriteStaysInItsBox
  intro s t x y n h ht
  obtain rfl := eq_drawn_of_exec_drw h ht
  have changed : ((Finset.range 32 ×ˢ Finset.range 64).filter fun p =>
        Framebuffer.pixel (s.drawn x y n).fb p.1 p.2 ≠ Framebuffer.pixel s.fb p.1 p.2)
      = (Finset.range 32 ×ˢ Finset.range 64).filter fun p =>
        s.spritePixel x y n p.1 p.2 = true := by
    refine Finset.filter_congr fun p hp => ?_
    obtain ⟨hr, hc⟩ := Finset.mem_product.1 hp
    exact State.pixel_drawn_ne_iff (Finset.mem_range.1 hr) (Finset.mem_range.1 hc)
  refine ⟨fun row col hr hc outside => ?kept, congrArg Finset.card changed, ?bound⟩
  case kept =>
    by_contra hne
    have := State.spritePixel_in_box ((State.pixel_drawn_ne_iff hr hc).1 hne)
    omega
  case bound =>
    rw [changed]
    exact s.card_spritePixel_le x y n

end Sys2Proof.Machine
end

section
/-! The keypad skips and the timer copies (spec/45_keypad_timers.md R98 to R103): the key that `Vx`
selects, and each timer write as it stands at the end of a whole Step. -/

namespace Sys2Proof.Machine

variable {s : State} {x : Reg} {k : Fin 16}

/-! The keypad skips. -/

/-- Where SKP's obligation of R134 holds, the key asked for is number `Vx` mod 16 under either policy. -/
theorem State.keyOperand_selected (hk : k.val = (s.readReg x).toNat % 16)
    (hok : HandlerOk (.skp x) s) : s.keyOperand x = .ok s.key[k] := by
  rcases s.keyAt_cases (s.readReg x) with ⟨hlt, hc⟩ | ⟨hge, hfault, -⟩ | ⟨-, -, hc⟩
  · obtain rfl : k = ⟨_, hlt⟩ := Fin.ext (hk.trans (Nat.mod_eq_of_lt hlt))
    exact hc
  · have := hok hfault
    omega
  · obtain rfl : k = ⟨_, Nat.mod_lt _ (by decide)⟩ := Fin.ext hk
    exact hc

/-- A handler that asks for a key number above 15 under Fault raises, whatever it would have written. -/
theorem conclude_keyOperand_aboveFifteen (hfault : s.params.keyIndexPolicy = .fault)
    (h : 15 < (s.readReg x).toNat) (f : Bool → State) :
    conclude (s.keyOperand x) s f =
      .next (s.raise .keyIndexOutOfRange (BitVec.ofNat 16 (s.readReg x).toNat)) := by
  rw [BitVec.ofNat_toNat]
  rcases s.keyAt_cases (s.readReg x) with ⟨hlt, -⟩ | ⟨-, -, hc⟩ | ⟨-, hmask, -⟩
  · omega
  · rw [State.keyOperand, hc, conclude_raises]
  · simp [hfault] at hmask

theorem keeps_skipIf (s : State) (c : Bool) : Keeps [.pc] s (s.skipIf c) := by
  simp [Keeps]

theorem State.skipIf_not_pc (s : State) (c : Bool) :
    (s.skipIf !c).pc = if c = true then s.pc else s.pc + 2 := by
  cases c <;> rfl

/-- Settles O38: each is `skipIf` of the selected key, SKNP of its negation. -/
theorem keySkipsFollowTheSelectedKey : Obligations.KeySkipsFollowTheSelectedKey := by
  unfold Obligations.KeySkipsFollowTheSelectedKey
  intro s x k hk hok
  have hkey : s.keyOperand x = .ok s.key[k] := State.keyOperand_selected hk hok
  refine ⟨⟨s.skipIf s.key[k], ?skp, keeps_skipIf s _, s.skipIf_pc _⟩,
    ⟨s.skipIf !s.key[k], ?sknp, keeps_skipIf s _, s.skipIf_not_pc _⟩⟩
  case skp => simp only [exec, execSkp, hkey, conclude_ok]
  case sknp => simp only [exec, execSknp, hkey, conclude_ok]

/-- Settles O39: both handlers are the one key check, and `raise` writes the report alone. -/
theorem keyNumberAboveFifteenRaises : Obligations.KeyNumberAboveFifteenRaises := by
  unfold Obligations.KeyNumberAboveFifteenRaises
  intro s x hfault h
  exact ⟨conclude_keyOperand_aboveFifteen hfault h _, conclude_keyOperand_aboveFifteen hfault h _⟩

/-! The timer copies. -/

/-- Settles O40: each copy is one write, with the frame `exec_keeps`; under PerStep the Step's closing
Tick (O8) counts the new value down once. -/
theorem timerLoadsCopyOneValue : Obligations.TimerLoadsCopyOneValue := by
  unfold Obligations.TimerLoadsCopyOneValue
  intro s x
  exact ⟨⟨_, rfl, s.readReg_writeReg_self x _, keepsRegsBut_writeReg s x _,
      exec_keeps (i := .ldVxDt x) rfl⟩,
    ⟨_, rfl, rfl, exec_keeps (i := .ldDtVx x) rfl, fun hmode hreply =>
      ⟨_, (completedStepTicksOnlyPerStep _).1 hmode hreply, countDown_toNat _⟩⟩,
    ⟨_, rfl, rfl, exec_keeps (i := .ldStVx x) rfl, fun hmode hreply =>
      ⟨_, (completedStepTicksOnlyPerStep _).1 hmode hreply, countDown_toNat _⟩⟩⟩

end Sys2Proof.Machine
end

section
/-! The timers (spec/60_exceptions.md R119 to R121): one Tick, several in a row, and who can raise `DT`. -/

namespace Sys2Proof.Machine

variable {s t : State} {rnd : Byte}

/-! Ticks. -/

theorem countDown_zero : countDown 0 = 0 := rfl

/-- Writing both timers changes nothing else. -/
theorem keeps_setTimers (s : State) (a b : Byte) : Keeps [.dt, .st] s ((s.setDt a).setSt b) := by
  simp [Keeps]

/-- Settles O41: each timer is its own `countDown`, and `Tick` is the two timer writes. -/
theorem tickCountsEachTimerDownToZero : Obligations.TickCountsEachTimerDownToZero := by
  unfold Obligations.TickCountsEachTimerDownToZero
  intro s
  exact ⟨fun _ => countDown_toNat s.dt, fun h => (congrArg countDown h).trans countDown_zero,
    fun _ => countDown_toNat s.st, fun h => (congrArg countDown h).trans countDown_zero,
    keeps_setTimers s _ _⟩

/-- `k` Ticks in closed form: each timer less `k`, as a number and so not below 0 (R121(a)). -/
theorem State.ticks_eq (k : Nat) (s : State) :
    State.ticks k s =
      (s.setDt (BitVec.ofNat 8 (s.dt.toNat - k))).setSt (BitVec.ofNat 8 (s.st.toNat - k)) := by
  induction k generalizing s with
  | zero => simp only [Nat.sub_zero, BitVec.ofNat_toNat, BitVec.setWidth_eq]; rfl
  | succ k ih =>
    have hsub (a : Byte) : (countDown a).toNat - k = a.toNat - (k + 1) := by
      rw [countDown_toNat]; omega
    rw [State.ticks, ih, State.tick_dt, State.tick_st, hsub, hsub]
    rfl

/-- Settles O42: the closed form `ticks_eq`, whose numbers fit in a byte. -/
theorem ticksSubtractAndSaturate : Obligations.TicksSubtractAndSaturate := by
  unfold Obligations.TicksSubtractAndSaturate
  intro k s
  rw [State.ticks_eq]
  exact ⟨toNat_ofNat_of_le_byte (Nat.sub_le _ k), toNat_ofNat_of_le_byte (Nat.sub_le _ k),
    keeps_setTimers s _ _⟩

/-! `DT` under every event (R121(b)). -/

theorem State.tick_dt_le (s : State) : s.tick.dt.toNat ≤ s.dt.toNat :=
  (countDown_toNat s.dt).trans_le (Nat.sub_le _ 1)

theorem State.timerBookkeeping_dt_le (s : State) : s.timerBookkeeping.dt.toNat ≤ s.dt.toNat := by
  rcases s.timerBookkeeping_cases with ⟨h, -⟩ | ⟨h, -⟩
  · exact h.symm ▸ s.tick_dt_le
  · rw [h]

/-- An instruction that leaves `DT` larger is its load. -/
theorem ldDtVx_of_dt_lt {i : Instr} (h : exec i s = .next t) (hlt : s.dt.toNat < t.dt.toNat) :
    ∃ x, i = .ldDtVx x :=
  dt_writers (not_imp_comm.1 (exec_keeps h).dt fun he => hlt.ne (he ▸ rfl))

/-- A Step that leaves `DT` larger fetched LD DT,Vx: a raise keeps `DT`, and the closing bookkeeping does
not raise it. -/
theorem stepEvent_fetched_ldDtVx (h : stepEvent rnd s = .next t) (hlt : s.dt.toNat < t.dt.toNat) :
    FetchOk s ∧
      ∃ x, decodeBytes [s.byteAt s.pc.toNat, s.byteAt (s.pc.toNat + 1)] = .instr (.ldDtVx x) [] := by
  cases hc : s.checkFetch with
  | raises kind info =>
    rw [stepEvent_of_raises rnd hc] at h
    exact absurd hlt (Host.Outcome.next.inj h ▸ lt_irrefl _)
  | ok =>
    have hf := s.checkFetch_ok_iff.1 hc
    rcases decodeWord_cases s.fetchWord with ⟨i, hi⟩ | hu
    · obtain ⟨u, hexec⟩ := exec_next i (s.beginStep rnd).advancePc
      rw [stepEvent_of_instr rnd hf hi, hexec, endStep_next] at h
      obtain rfl := Host.Outcome.next.inj h
      obtain ⟨x, rfl⟩ := ldDtVx_of_dt_lt hexec (hlt.trans_le u.timerBookkeeping_dt_le)
      exact ⟨hf, x, by rw [decodeBytes_fetch, hi]⟩
    · rw [stepEvent_of_unknown rnd hf hu] at h
      exact absurd hlt (Host.Outcome.next.inj h ▸ lt_irrefl _)

theorem State.onLoadProgram_dt (s : State) (bytes : List Byte) : (s.onLoadProgram bytes).dt = s.dt := by
  unfold State.onLoadProgram; split <;> rfl

theorem State.onReadByte_dt (s : State) (a : Nat) : (s.onReadByte a).dt = s.dt := by
  unfold State.onReadByte; split <;> rfl

theorem State.onTick_dt_le (s : State) : s.onTick.dt.toNat ≤ s.dt.toNat := by
  unfold State.onTick
  split
  · exact s.tick_dt_le
  · exact le_rfl

/-- Serving any event but a Step leaves `DT` or lowers it. -/
theorem serve_dt_le {e : Event} (hstep : ∀ r, e ≠ .step r) (h : serve e s = .next t) :
    t.dt.toNat ≤ s.dt.toNat := by
  cases e with
  | step r => exact absurd rfl (hstep r)
  | reset => exact Host.Outcome.next.inj h ▸ Nat.zero_le _
  | loadProgram bytes => exact Host.Outcome.next.inj h ▸ (s.onLoadProgram_dt bytes ▸ le_rfl)
  | tick => exact Host.Outcome.next.inj h ▸ s.onTick_dt_le
  | readByte a => exact Host.Outcome.next.inj h ▸ (s.onReadByte_dt a ▸ le_rfl)
  | setKey | snapshotVideo | readDelayTimer | readSoundTimer | keyState =>
    exact Host.Outcome.next.inj h ▸ le_rfl

/-- Settles O22: `serve_dt_le` leaves only a Step, bare or pending, and that Step fetched LD DT,Vx. -/
theorem delayTimerRisesOnlyByItsLoad : Obligations.DelayTimerRisesOnlyByItsLoad := by
  unfold Obligations.DelayTimerRisesOnlyByItsLoad
  intro s t h hlt
  cases hp : s.pending with
  | nil =>
    rw [step_of_nil hp] at h
    obtain ⟨hf, hx⟩ := stepEvent_fetched_ldDtVx h hlt
    exact ⟨hf, .inl rfl, hx⟩
  | cons e rest =>
    rw [step_of_cons hp] at h
    cases e with
    | step r =>
      obtain ⟨hf, hx⟩ := stepEvent_fetched_ldDtVx (s := s.setPending rest) h hlt
      exact ⟨hf, .inr ⟨r, rest, rfl⟩, hx⟩
    | _ => exact absurd hlt (serve_dt_le (s := s.setPending rest) (by simp) h).not_gt

end Sys2Proof.Machine
end

section
/-! The illegal instruction (spec/60_exceptions.md R106). -/

namespace Sys2Proof.Machine

variable {s : State}

/-- Where the two bytes at `PC` are no instruction, neither is the fetched word. -/
theorem decodeWord_fetchWord_unknown {w : Word}
    (h : decodeBytes [s.byteAt s.pc.toNat, s.byteAt (s.pc.toNat + 1)] = .unknown w []) :
    decodeWord s.fetchWord = .unknown w := by
  rw [decodeBytes_fetch] at h
  rcases decodeWord_cases s.fetchWord with ⟨i, hi⟩ | hu
  · rw [hi] at h
    cases h
  · rw [hu] at h ⊢
    rw [(DecodedBytes.unknown.inj h).1]

/-- Settles O9: the Step raises from the state after the fetch, and `raise` writes the report alone. -/
theorem unknownWordRaisesIllegalInstruction : Obligations.UnknownWordRaisesIllegalInstruction := by
  unfold Obligations.UnknownWordRaisesIllegalInstruction
  intro s rnd w hf hd
  exact stepEvent_of_unknown rnd hf (decodeWord_fetchWord_unknown hd)

end Sys2Proof.Machine
end

section
/-! The host's events `LoadProgram`, `SetKey`, `Tick` and the read-only ones (spec/60_exceptions.md R119 to
R124, 70_reset_and_hazards.md R129): one equation per case of each. -/

namespace Sys2Proof.Machine

open Config

variable {s : State}

/-! `LoadProgram`. -/

theorem State.onLoadProgram_of_le {bytes : List Byte} (h : bytes.length ≤ progMax) :
    s.onLoadProgram bytes = (s.setBytes progBase bytes).setReply .ok :=
  if_neg h.not_gt

theorem State.onLoadProgram_of_lt {bytes : List Byte} (h : progMax < bytes.length) :
    s.onLoadProgram bytes = s.raise .programTooLarge (saturate16 bytes.length) :=
  if_pos h

/-- Settles O57: an accepted image is one store that ends inside memory, a refused one a `raise`. -/
theorem loadProgramCopiesWholeImageOrNothing : Obligations.LoadProgramCopiesWholeImageOrNothing := by
  unfold Obligations.LoadProgramCopiesWholeImageOrNothing
  intro s bytes rest hp
  have hstep : step s = .next ((s.setPending rest).onLoadProgram bytes) := step_of_cons hp
  refine ⟨fun hP hle => ?copied, fun hlt => ?refused⟩
  case copied =>
    have hfit : progBase + bytes.length ≤ memSize := by unfold progBase memSize; omega
    rw [State.onLoadProgram_of_le hle] at hstep
    exact ⟨_, hstep, rfl, rfl,
      fun k hk => (s.setPending rest).byteAt_setBytes_inside hP bytes hk hfit,
      keepsBytesOutside_setBytes (s := s.setPending rest) progBase bytes, by simp [Keeps]⟩
  case refused => exact hstep.trans (congrArg _ (State.onLoadProgram_of_lt hlt))

/-! `SetKey`. -/

theorem State.onSetKey_key (s : State) (k j : Fin 16) (down : Bool) :
    (s.onSetKey k down).key[j] = if j = k then down else s.key[j] := by
  simp [State.onSetKey, Vector.getElem_set, Fin.ext_iff, eq_comm]

/-- Settles O58: one write to the keypad, read back key by key. -/
theorem setKeyChangesOneKey : Obligations.SetKeyChangesOneKey := by
  unfold Obligations.SetKeyChangesOneKey
  intro s k down rest hp
  exact ⟨(s.setPending rest).onSetKey k down, step_of_cons hp,
    fun j => (s.setPending rest).onSetKey_key k j down, rfl, rfl, by simp [Keeps, State.onSetKey]⟩

/-! `Tick` as a host event. -/

theorem State.onTick_external (h : s.params.timerMode = .external) :
    s.onTick = s.tick.setReply .ok := by
  unfold State.onTick; rw [h]

/-- Settles O59: under External the event is one `Tick`. -/
theorem hostTickCountsDown : Obligations.HostTickCountsDown := by
  unfold Obligations.HostTickCountsDown
  intro s rest hp hmode
  have htick : (s.setPending rest).onTick = (s.setPending rest).tick.setReply .ok :=
    State.onTick_external hmode
  exact ⟨(s.setPending rest).tick.setReply .ok, (step_of_cons hp).trans (congrArg _ htick),
    countDown_toNat s.dt, countDown_toNat s.st, rfl, rfl, by simp [Keeps]⟩

/-! The read-only events. -/

/-- Bit `64*row + col` of the picture is `FB[row][col]` (R124). -/
theorem Framebuffer.getLsbD_snapshot (fb : Framebuffer) {row col : Nat} (hr : row < 32) (hc : col < 64) :
    (Framebuffer.snapshot fb).getLsbD (64 * row + col) = Framebuffer.pixel fb row col := by
  have hrow : (64 * row + col) / 64 = row := by omega
  have hcol : (64 * row + col) % 64 = col := by omega
  have hbit : 64 * row + col < 2048 := by omega
  simp [Framebuffer.snapshot, hbit, hrow, hcol]

theorem State.onReadByte_of_lt {a : Nat} (h : a < memSize) :
    s.onReadByte a = s.setReply (.byte (s.byteAt a)) := by
  have hread : s.memRead8 a = .ok (s.byteAt a) := if_neg h.not_ge
  rw [State.onReadByte, hread]

theorem State.onReadByte_of_le {a : Nat} (h : memSize ≤ a) :
    s.onReadByte a = s.raise .addressOutOfRange (saturate16 a) := by
  have hread : s.memRead8 a = .raises .addressOutOfRange (saturate16 a) := if_pos h
  rw [State.onReadByte, hread]

/-- Settles O60: each event is one write of `reply`; only `ReadByte` has a second case. -/
theorem readOnlyEventsAnswerAndChangeNothing : Obligations.ReadOnlyEventsAnswerAndChangeNothing := by
  unfold Obligations.ReadOnlyEventsAnswerAndChangeNothing
  intro s rest
  refine ⟨fun hp => ⟨Framebuffer.snapshot s.fb, step_of_cons hp, ?picture⟩, fun hp => step_of_cons hp,
    fun hp => step_of_cons hp, fun k hp => step_of_cons hp, fun a hp h => ?inside, fun a hp h => ?outside⟩
  case picture => exact fun row col hr hc => Framebuffer.getLsbD_snapshot s.fb hr hc
  case inside => exact (step_of_cons hp).trans (congrArg _ (State.onReadByte_of_lt h))
  case outside => exact (step_of_cons hp).trans (congrArg _ (State.onReadByte_of_le h))

end Sys2Proof.Machine
end

section
/-! What software owes (spec/70_reset_and_hazards.md R134): a Step ends ok exactly when the fetch, the
decoder and the handler each find their obligation kept. -/

namespace Sys2Proof.Machine

variable {s t : State} {i : Instr} {rnd : Byte}

/-- The converse of `decodeWord_fetchWord`. -/
theorem decodeBytes_of_fetchWord (h : decodeWord s.fetchWord = .instr i) :
    decodeBytes [s.byteAt s.pc.toNat, s.byteAt (s.pc.toNat + 1)] = .instr i [] := by
  rw [decodeBytes_fetch, h]

/-- No instruction's obligation speaks of what the fetch changes: `PC`, the argument and the outcome. -/
theorem handlerOk_fetched (i : Instr) (s : State) (rnd : Byte) :
    HandlerOk i (s.beginStep rnd).advancePc ↔ HandlerOk i s := by
  cases i <;> rfl

@[simp] theorem State.erred_raise (s : State) (kind : ErrorKind) (info : Word) :
    (s.raise kind info).erred = true := rfl

@[simp] theorem State.erred_timerBookkeeping (s : State) : s.timerBookkeeping.erred = s.erred := by
  simp [State.erred, State.report]

/-- A handler begun without an error ends without one exactly when its obligation holds (R62). -/
theorem exec_not_erred_iff (h : exec i s = .next t) (hs : s.reply = .ok) :
    t.erred = false ↔ HandlerOk i s := by
  obtain ⟨u, hu, hout⟩ := exec_outcome i s
  obtain rfl := Host.Outcome.next.inj (hu.symm.trans h)
  rcases hout with ⟨hi, hr⟩ | ⟨hi, kind, info, -, rfl⟩
  · exact iff_of_true (State.erred_of_ok (hr.trans hs)) hi
  · exact iff_of_false (by simp) hi

theorem stepEvent_erred_of_not_fetchOk (hf : ¬ FetchOk s) (h : stepEvent rnd s = .next t) :
    t.erred = true := by
  cases hc : s.checkFetch with
  | ok => exact absurd (s.checkFetch_ok_iff.1 hc) hf
  | raises kind info =>
    obtain rfl := Host.Outcome.next.inj ((stepEvent_of_raises rnd hc).symm.trans h)
    rfl

theorem stepEvent_erred_of_unknown {w : Word} (hf : FetchOk s)
    (hu : decodeWord s.fetchWord = .unknown w) (h : stepEvent rnd s = .next t) : t.erred = true := by
  obtain rfl := Host.Outcome.next.inj ((stepEvent_of_unknown rnd hf hu).symm.trans h)
  rfl

theorem stepEvent_not_erred_iff_of_instr (hf : FetchOk s) (hi : decodeWord s.fetchWord = .instr i)
    (h : stepEvent rnd s = .next t) : t.erred = false ↔ HandlerOk i s := by
  obtain ⟨u, hexec⟩ := exec_next i (s.beginStep rnd).advancePc
  rw [stepEvent_of_instr rnd hf hi, hexec, endStep_next] at h
  obtain rfl := Host.Outcome.next.inj h
  rw [State.erred_timerBookkeeping, exec_not_erred_iff hexec rfl, handlerOk_fetched]

/-- Settles O12: the fetch is refused, the word is `Unknown`, or the handler decides. -/
theorem stepErrsExactlyWhenSoftwareBreaksAnObligation :
    Obligations.StepErrsExactlyWhenSoftwareBreaksAnObligation := by
  unfold Obligations.StepErrsExactlyWhenSoftwareBreaksAnObligation
  intro s rnd
  obtain ⟨t, ht⟩ := stepEvent_next rnd s
  refine ⟨t, ht, ?_⟩
  by_cases hf : FetchOk s
  case neg => simp [stepEvent_erred_of_not_fetchOk hf ht, hf]
  rcases decodeWord_cases s.fetchWord with ⟨i, hi⟩ | hu
  case inl =>
    rw [stepEvent_not_erred_iff_of_instr hf hi ht]
    refine ⟨fun hok => ⟨hf, i, decodeBytes_of_fetchWord hi, hok⟩, fun ⟨_, j, hj, hok⟩ => ?_⟩
    obtain rfl := Decoded.instr.inj (hi.symm.trans (decodeWord_fetchWord hj))
    exact hok
  case inr =>
    refine iff_of_false (by simp [stepEvent_erred_of_unknown hf hu ht]) fun ⟨_, j, hj, _⟩ => ?_
    cases hu.symm.trans (decodeWord_fetchWord hj)

end Sys2Proof.Machine
end

section
/-! The `Reset` event (spec/70_reset_and_hazards.md R127, R128). -/

namespace Sys2Proof.Machine

open Config

/-- Inside the glyph set an address that is not listed reads as its byte of the ROM (R29, R30). -/
theorem Memory.unlisted_glyph (rom : Vector Byte 80) (k : Fin 80) :
    Memory.unlisted rom (0x050 + k.val) = rom[k] := by
  have hin : glyphBase ≤ 0x050 + k.val ∧ 0x050 + k.val < glyphBase + glyphLen := by
    unfold glyphBase glyphLen; omega
  rw [Memory.unlisted, if_pos hin]
  simp [glyphBase]

/-- The memory after `Reset` is the one of the reset state under the same parameters. -/
theorem State.byteAt_onReset (s : State) (a : Nat) :
    s.onReset.byteAt a = Memory.unlisted s.params.glyphRom a := rfl

/-- Settles O56: the event puts the reset state under the parameters that stand. -/
theorem resetEventRestoresEveryItem : Obligations.ResetEventRestoresEveryItem := by
  unfold Obligations.ResetEventRestoresEveryItem
  intro s rest hp
  refine ⟨(s.setPending rest).onReset, step_of_cons hp, fun k => ?glyphs, fun a ha => ?zeroed,
    State.readReg_resetWith s.params, State.stack_resetWith s.params, rfl, rfl, rfl, rfl, rfl, rfl, rfl,
    rfl, rfl, rfl⟩
  case glyphs => rw [State.byteAt_onReset]; exact Memory.unlisted_glyph _ k
  case zeroed => rw [State.byteAt_onReset]; exact Memory.unlisted_outside _ ha

end Sys2Proof.Machine
end
